-- ==== Sys2Proof/Word.lean ====
section
/-! DEFINITION. The byte and the byte sequence of 00_scope.md R8, R9. -/

namespace Sys2Proof

/-- `u8` of 00_scope.md R8, R9. -/
abbrev Byte := BitVec 8

/-- `Bytes` of 00_scope.md R9: a finite list of bytes, the first on the wire first. -/
abbrev Bytes := List (BitVec 8)

end Sys2Proof
end

