-- ==== Sys2Proof/Config.lean ====
section
/-! DEFINITION. What is fixed when a block instance is created: `Cfg` (00_scope.md R6), `CAP` (10_state.md R27),
`DIR` and the two OPEN parameters (92_eei_decisions.md, "Open parameters"). -/

namespace Sys2Proof

/-- `BIT_ORDER` of 00_scope.md R6: the order in which a byte's bits enter a CRC. The spec gives the one value
(R6, 20_memory.md R43), so there is the one constructor. -/
inductive BitOrder where
  | msbFirst
deriving DecidableEq, Repr

/-- The two bytes of a preamble, the first on the wire first (30_encoding.md R60). -/
structure Preamble where
  b0 : Byte
  b1 : Byte
deriving DecidableEq, Repr

/-- `Cfg` of 00_scope.md R6. `lmax` is a byte because the length byte is one (30_encoding.md R70). -/
structure Cfg where
  preCmd : Preamble
  preRsp : Preamble
  crc5Poly : BitVec 5
  crc5Init : BitVec 5
  crc5XorOut : BitVec 5
  crc16Poly : BitVec 16
  crc16Init : BitVec 16
  crc16XorOut : BitVec 16
  bitOrder : BitOrder
  lmax : Byte
deriving DecidableEq, Repr

/-- The "this spec" column of 00_scope.md R6. PRESUMED (log 12): every value is general knowledge or a decision of the
spec, none is the source's; unsafe. -/
def Cfg.spec : Cfg where
  preCmd := ⟨0x55, 0xAA⟩
  preRsp := ⟨0xAA, 0x55⟩
  crc5Poly := 0x05
  crc5Init := 0x1F
  crc5XorOut := 0x00
  crc16Poly := 0x1021
  crc16Init := 0xFFFF
  crc16XorOut := 0x0000
  bitOrder := .msbFirst
  lmax := 255

/-- `DIR` of 00_scope.md R6: which direction a decoder instance reads. -/
inductive Direction where
  /-- reads response frames -/
  | host
  /-- reads command frames -/
  | chip
deriving DecidableEq, Repr

/-- A register id and a register value, what `CAP.vr_write` and `CAP.baud_write` answer (10_state.md R27). -/
structure RegWrite where
  reg : Byte
  value : BitVec 32
deriving DecidableEq, Repr

/-- The `vr_write` of chip family number `family`: any function at all, uninterpreted (10_state.md R27: supplied by the
caller; log 3). Safe: nothing can be proved of its values. -/
opaque Config.familyVrWrite (family : Nat) (mask : BitVec 32) : BitVec 8 × BitVec 32

/-- The `baud_write` of chip family number `family`: any function at all, uninterpreted (10_state.md R27; log 3). Safe:
nothing can be proved of its values. -/
opaque Config.familyBaudWrite (family : Nat) (rate : Nat) : Option (BitVec 8 × BitVec 32)

/-- `CAP.vr_write` as plain data (log 3). -/
inductive VrWrite where
  /-- register `reg`, value `(mask AND keep) OR set` -/
  | masked (reg : Byte) (keep set : BitVec 32)
  /-- the uninterpreted function of a chip family -/
  | family (id : Nat)
deriving DecidableEq, Repr

/-- `CAP.baud_write` as plain data (log 3). -/
inductive BaudWrite where
  /-- the rates listed, the first row of a rate counting; no other rate can be realised -/
  | rows (table : List (Nat × RegWrite))
  /-- the uninterpreted function of a chip family -/
  | family (id : Nat)
deriving DecidableEq, Repr

/-- `CAP`, the capability descriptor of 10_state.md R27. The block consults only the last three fields; the two opaque
ones are carried as bytes nothing reads (log 19). -/
structure Cap where
  regCount : Nat
  regWidth : Nat
  decodeRules : Bytes
  resetDefaults : Bytes
  vrSupported : Bool
  vrWrite : VrWrite
  baudWrite : BaudWrite
deriving DecidableEq, Repr

/-- The arguments of a block instance: fixed at creation, never changed (10_state.md R28, 70_reset_and_hazards.md R230).
`malThreshold` and `rxCapacity` are the OPEN parameters D22 and D24; `none` is "never surface" and "unbounded". -/
structure Instance where
  cfg : Cfg
  cap : Cap
  dir : Direction
  malThreshold : Option Nat
  rxCapacity : Option Nat
deriving DecidableEq, Repr

/-- What the spec asks of a caller's open parameters: a threshold is positive (00_scope.md R6), a finite capacity is at
least 257 (42_decoder.md R181). The block gives every instance a meaning, and no statement needs this. -/
def Instance.wellFormed (i : Instance) : Bool :=
  (match i.malThreshold with
   | none => true
   | some k => decide (0 < k)) &&
  (match i.rxCapacity with
   | none => true
   | some n => decide (257 ≤ n))

/-- `CAP_EX` of 95_test_vectors.md section 2. DESIGN CHOICE (log 2): the four fields the spec gives no value there. -/
def Cap.example : Cap where
  regCount := 256
  regWidth := 32
  decodeRules := []
  resetDefaults := []
  vrSupported := true
  vrWrite := .masked 0xA4 0xFFFFFFFF 0
  baudWrite := .rows [(1000000, ⟨0x28, 0x11300200⟩)]

/-- The instance `State.reset` is created with. DESIGN CHOICE (log 2); unsafe. -/
def Config.instance0 : Instance where
  cfg := Cfg.spec
  cap := Cap.example
  dir := .host
  malThreshold := none
  rxCapacity := none

end Sys2Proof
end

