-- ==== Sys2Proof/Machine/Operands.lean ====
section
/-! DEFINITION. Byte order (20_memory.md R42, R44, R45; 00_scope.md R9), the operand assembly and field extraction of
30_encoding.md R71, R72 below the level of a frame. -/

namespace Sys2Proof.Machine

/-- `be16` of 00_scope.md R9. -/
def be16 (v : BitVec 16) : Bytes := [v.extractLsb' 8 8, v.extractLsb' 0 8]

/-- `be32` of 00_scope.md R9. -/
def be32 (v : BitVec 32) : Bytes :=
  [v.extractLsb' 24 8, v.extractLsb' 16 8, v.extractLsb' 8 8, v.extractLsb' 0 8]

/-- `u16be` of 00_scope.md R9. -/
def u16be (b0 b1 : Byte) : BitVec 16 := (b0.setWidth 16 <<< 8) ||| b1.setWidth 16

/-- `u32be` of 00_scope.md R9. -/
def u32be (b0 b1 b2 b3 : Byte) : BitVec 32 :=
  (b0.setWidth 32 <<< 24) ||| (b1.setWidth 32 <<< 16) ||| (b2.setWidth 32 <<< 8) ||| b3.setWidth 32

/-- `zext_8` of a 5-bit checksum (20_memory.md R45): bits 7..5 are zero. -/
def zext8 (v : BitVec 5) : Byte := v.setWidth 8

/-- `xs[a..b)` of 00_scope.md R9. -/
def slice (xs : Bytes) (a b : Nat) : Bytes := (xs.take b).drop a

end Sys2Proof.Machine
end

