-- ==== Sys2Proof/Syntax.lean ====
section
/-! DEFINITION. The operations of the block and the values they work on: one constructor of `Instr` per row of
spec/opcode_table.json, the variants of 30_encoding.md R61, the two encodings' names. -/

namespace Sys2Proof

/-- The addressing mode of 00_scope.md R11. -/
inductive Mode where
  | unicast
  | broadcast
deriving DecidableEq, Repr

/-- The commands of 30_encoding.md R61. `setBaudRate` is the pseudo-command of R93. -/
inductive Command where
  | setChipAddress (addr : Byte)
  | chainInactive
  | readRegister (mode : Mode) (addr reg : Byte)
  | writeRegister (mode : Mode) (addr reg : Byte) (value : BitVec 32)
  | setBaudRate (rate : Nat)
  | submitJob (jobId : Byte) (work : Bytes) (mask : Option (BitVec 32))
deriving DecidableEq, Repr

/-- The responses of 30_encoding.md R61. -/
inductive Response where
  | regResponse (addr reg : Byte) (value : BitVec 32)
  | jobResult (jobId addr : Byte) (nonce : BitVec 32) (version : BitVec 16)
deriving DecidableEq, Repr

/-- `Parsed` of 42_decoder.md R160. -/
inductive Parsed where
  | cmd (c : Command)
  | rsp (r : Response)
  | unrecognized
deriving DecidableEq, Repr

/-- `StepResult` of 42_decoder.md R160. `continued` is the spec's `Continue`. -/
inductive StepResult where
  | continued
  | needMore
  | frame (f : Bytes)
  | alarm (n : BitVec 32)
deriving DecidableEq, Repr

/-- `Event` of 42_decoder.md R160. -/
inductive Event where
  | needMore
  | frame (f : Bytes) (v : Parsed)
  | alarm (n : BitVec 32)
deriving DecidableEq, Repr

/-- The rows of spec/opcode_table.json: the 16 interface operations of 30_encoding.md R90 with their operands (an operand
outside its type cannot be written, R91), then the 9 wire header codes of R67 and R68 with their fields. -/
inductive Instr where
  | crc5 (data : Bytes)
  | crc16 (data : Bytes)
  | encSetaddr (addr : Byte)
  | encInactive
  | encRead (mode : Mode) (addr reg : Byte)
  | encWrite (mode : Mode) (addr reg : Byte) (value : BitVec 32)
  | encBaud (rate : Nat)
  | encJob (jobId : Byte) (work : Bytes) (mask : Option (BitVec 32))
  | encRreg (addr reg : Byte) (value : BitVec 32)
  | encRjob (jobId addr : Byte) (nonce : BitVec 32) (version : BitVec 16)
  | decPush (data : Bytes)
  | decStep
  | decPoll
  | decParse (f : Bytes)
  | decReset
  | decStatus
  | frameSetaddr (addr : Byte)
  | frameWriteRegU (addr reg : Byte) (value : BitVec 32)
  | frameWriteRegB (reg : Byte) (value : BitVec 32)
  | frameReadRegU (addr reg : Byte)
  | frameReadRegB (reg : Byte)
  | frameChainInactive
  | frameJob (jobId : Byte) (work : Bytes)
  | frameRespReg (addr reg : Byte) (value : BitVec 32)
  | frameRespJob (jobId addr : Byte) (nonce : BitVec 32) (version : BitVec 16)
deriving DecidableEq, Repr

/-- The rows of spec/opcode_table.json without their operands. -/
inductive Row where
  | crc5 | crc16
  | encSetaddr | encInactive | encRead | encWrite | encBaud | encJob | encRreg | encRjob
  | decPush | decStep | decPoll | decParse | decReset | decStatus
  | frameSetaddr | frameWriteRegU | frameWriteRegB | frameReadRegU | frameReadRegB | frameChainInactive | frameJob
  | frameRespReg | frameRespJob
deriving DecidableEq, Repr

/-- The row an instruction belongs to. -/
def Instr.row : Instr → Row
  | .crc5 _ => .crc5
  | .crc16 _ => .crc16
  | .encSetaddr _ => .encSetaddr
  | .encInactive => .encInactive
  | .encRead _ _ _ => .encRead
  | .encWrite _ _ _ _ => .encWrite
  | .encBaud _ => .encBaud
  | .encJob _ _ _ => .encJob
  | .encRreg _ _ _ => .encRreg
  | .encRjob _ _ _ _ => .encRjob
  | .decPush _ => .decPush
  | .decStep => .decStep
  | .decPoll => .decPoll
  | .decParse _ => .decParse
  | .decReset => .decReset
  | .decStatus => .decStatus
  | .frameSetaddr _ => .frameSetaddr
  | .frameWriteRegU _ _ _ => .frameWriteRegU
  | .frameWriteRegB _ _ => .frameWriteRegB
  | .frameReadRegU _ _ => .frameReadRegU
  | .frameReadRegB _ => .frameReadRegB
  | .frameChainInactive => .frameChainInactive
  | .frameJob _ _ => .frameJob
  | .frameRespReg _ _ _ => .frameRespReg
  | .frameRespJob _ _ _ _ => .frameRespJob

/-- The two kinds of encoding of 30_encoding.md: the interface's op numbers and the wire's header codes are two separate
number spaces (log 6). -/
inductive Space where
  | interface
  | wire
deriving DecidableEq, Repr

/-- One operation the caller asks for: its bytes, in one of the two encodings (log 4, log 5). -/
structure Request where
  space : Space
  bytes : Bytes
deriving DecidableEq, Repr

end Sys2Proof
end

