-- ==== Sys2Proof/WellFormed.lean ====
section
/-! DEFINITION. Which instructions are well formed beyond their operands' types (30_encoding.md R91). -/

namespace Sys2Proof

/-- The longest `work` a job frame can carry (30_encoding.md R70, 41_encoder.md R131). -/
def maxFrameWork : Nat := 250

/-- A broadcast operation takes no address operand: it is 0 (30_encoding.md R92). -/
def addrFits (mode : Mode) (addr : Byte) : Bool :=
  match mode with
  | .unicast => true
  | .broadcast => addr == 0

/-- Operand well-formedness (30_encoding.md R91). Two checks go beyond the operands' types: the absent address of a
broadcast operation (R92) and the work a job FRAME can hold (R70; an ENC_JOB may be asked for any work, R131). -/
def Instr.wellFormed : Instr → Bool
  | .encRead mode addr _ => addrFits mode addr
  | .encWrite mode addr _ _ => addrFits mode addr
  | .frameJob _ work => decide (work.length ≤ maxFrameWork)
  | .crc5 _ | .crc16 _ | .encSetaddr _ | .encInactive | .encBaud _ | .encJob _ _ _ | .encRreg _ _ _ | .encRjob _ _ _ _
  | .decPush _ | .decStep | .decPoll | .decParse _ | .decReset | .decStatus
  | .frameSetaddr _ | .frameWriteRegU _ _ _ | .frameWriteRegB _ _ | .frameReadRegU _ _ | .frameReadRegB _
  | .frameChainInactive | .frameRespReg _ _ _ | .frameRespJob _ _ _ _ => true

end Sys2Proof
end

