-- ==== Sys2Proof/Decode.lean ====
section
/-! DEFINITION. From the bytes of a request to an operation and back. The first byte is the row's "match" byte of
spec/opcode_table.json (30_encoding.md R90 for the interface, R67 and R68 for the wire); the operand bytes after it are
laid out by the model (log 5). A frame on the wire is not read here: that is DEC_STEP and DEC_PARSE (42_decoder.md). -/

namespace Sys2Proof

open Sys2Proof.Machine (be16 be32 u16be u32be)

/-- Why the bytes of a request are no operation. Every one is safe: the block takes no step. -/
inductive DecodeError where
  /-- a request of no bytes -/
  | emptyRequest
  /-- an op number R90 does not list, or a header value R67 and R68 do not name (reserved, 30_encoding.md R74) -/
  | unknownCode (space : Space) (code : Byte)
  /-- an operand's bytes are missing -/
  | truncated
  /-- bytes after the last operand: a request is one operation -/
  | trailingBytes
  /-- a mode byte other than 0 (Unicast) and 1 (Broadcast), 00_scope.md R11 -/
  | badMode (b : Byte)
  /-- an option byte other than 0 (`none`) and 1 (`some`), 00_scope.md R11 -/
  | badOption (b : Byte)
  /-- a natural number written with more digits than it needs -/
  | nonMinimalNumber
  /-- a reserved payload byte that is not zero, 30_encoding.md R75 -/
  | reservedByteNotZero (b : Byte)
  /-- a job frame whose work does not fit the length byte, 30_encoding.md R70 -/
  | workTooLong (length : Nat)
deriving DecidableEq, Repr

/-- spec/opcode_table.json: each row, the encoding it belongs to ("format") and its "match" byte (every mask is 0xFF). -/
def opcodeTable : List (Row × Space × Byte) := [
  (.crc5, .interface, 0x00), (.crc16, .interface, 0x01),
  (.encSetaddr, .interface, 0x10), (.encInactive, .interface, 0x11), (.encRead, .interface, 0x12),
  (.encWrite, .interface, 0x13), (.encBaud, .interface, 0x14), (.encJob, .interface, 0x15),
  (.encRreg, .interface, 0x16), (.encRjob, .interface, 0x17),
  (.decPush, .interface, 0x20), (.decStep, .interface, 0x21), (.decPoll, .interface, 0x22),
  (.decParse, .interface, 0x23), (.decReset, .interface, 0x24), (.decStatus, .interface, 0x25),
  (.frameSetaddr, .wire, 0x40), (.frameWriteRegU, .wire, 0x41), (.frameWriteRegB, .wire, 0x51),
  (.frameReadRegU, .wire, 0x42), (.frameReadRegB, .wire, 0x52), (.frameChainInactive, .wire, 0x53),
  (.frameJob, .wire, 0x21), (.frameRespReg, .wire, 0x60), (.frameRespJob, .wire, 0x80)]

/-- The row a code byte selects in an encoding. -/
def rowOfCode (space : Space) (code : Byte) : Option Row :=
  (opcodeTable.find? (fun e => e.2.1 == space && e.2.2 == code)).map (·.1)

/-- The encoding and the code byte of a row. -/
def codeOfRow (row : Row) : Space × Byte :=
  match opcodeTable.find? (fun e => e.1 == row) with
  | some e => e.2
  | none => (.interface, 0x00)

/-- A request's bytes read so far: a value and the bytes left, or the reason to reject. -/
abbrev Reader (α : Type) := Except DecodeError (α × Bytes)

/-- A `u8` operand. -/
def readByte : Bytes → Reader Byte
  | b :: rest => .ok (b, rest)
  | [] => .error .truncated

/-- A `u16` operand, big-endian. -/
def readU16 : Bytes → Reader (BitVec 16)
  | b0 :: b1 :: rest => .ok (u16be b0 b1, rest)
  | _ => .error .truncated

/-- A `u32` operand, big-endian. -/
def readU32 : Bytes → Reader (BitVec 32)
  | b0 :: b1 :: b2 :: b3 :: rest => .ok (u32be b0 b1 b2 b3, rest)
  | _ => .error .truncated

/-- A natural number: seven bits a byte, the least significant first, bit 7 set on every byte but the last. -/
def readNat : Bytes → Reader Nat
  | [] => .error .truncated
  | b :: rest =>
    if b.toNat < 128 then .ok (b.toNat, rest)
    else
      match readNat rest with
      | .error e => .error e
      | .ok (high, rest') =>
        if high = 0 then .error .nonMinimalNumber else .ok (b.toNat - 128 + 128 * high, rest')

/-- A `Bytes` operand: its length, then its bytes. -/
def readBytes (bs : Bytes) : Reader Bytes :=
  match readNat bs with
  | .error e => .error e
  | .ok (n, rest) => if rest.length < n then .error .truncated else .ok (rest.take n, rest.drop n)

/-- A mode operand: 0 is Unicast, 1 is Broadcast (as the header bit ALL, 30_encoding.md R71). -/
def readMode : Bytes → Reader Mode
  | [] => .error .truncated
  | b :: rest => if b = 0 then .ok (.unicast, rest) else if b = 1 then .ok (.broadcast, rest) else .error (.badMode b)

/-- The address operand of a mode: a broadcast operation has none and uses 0 (30_encoding.md R92). -/
def readAddr : Mode → Bytes → Reader Byte
  | .unicast, bs => readByte bs
  | .broadcast, bs => .ok (0, bs)

/-- An optional mask: 0 for `none`, 1 and the mask for `some`. -/
def readMask : Bytes → Reader (Option (BitVec 32))
  | [] => .error .truncated
  | b :: rest =>
    if b = 0 then .ok (none, rest)
    else if b = 1 then
      match readU32 rest with
      | .error e => .error e
      | .ok (m, rest') => .ok (some m, rest')
    else .error (.badOption b)

/-- A reserved payload byte (30_encoding.md R75). -/
def readZero : Bytes → Reader Unit
  | [] => .error .truncated
  | b :: rest => if b = 0 then .ok ((), rest) else .error (.reservedByteNotZero b)

/-- Read one thing, then go on with what is left. -/
def andThen {α β : Type} (first : Reader α) (next : α → Bytes → Reader β) : Reader β :=
  match first with
  | .error e => .error e
  | .ok (a, rest) => next a rest

/-- The operands of a register write after its address: a register and a value. -/
def readRegValue (make : Byte → BitVec 32 → Instr) (bs : Bytes) : Reader Instr :=
  andThen (readByte bs) fun reg r => andThen (readU32 r) fun value r => .ok (make reg value, r)

/-- The work of a job frame: its length, which the frame's length byte must be able to hold (30_encoding.md R70), the job id,
the work bytes. -/
def readFrameJob (bs : Bytes) : Reader Instr :=
  andThen (readNat bs) fun n r =>
    if maxFrameWork < n then .error (.workTooLong n)
    else andThen (readByte r) fun jobId r =>
      if r.length < n then .error .truncated else .ok (.frameJob jobId (r.take n), r.drop n)

/-- The operands of a job result: tag, address, nonce, version bits. -/
def readJobResult (make : Byte → Byte → BitVec 32 → BitVec 16 → Instr) (bs : Bytes) : Reader Instr :=
  andThen (readByte bs) fun jobId r => andThen (readByte r) fun addr r =>
    andThen (readU32 r) fun nonce r => andThen (readU16 r) fun version r => .ok (make jobId addr nonce version, r)

/-- The operand bytes of a row. For a wire row they are the frame's payload (30_encoding.md R67, R68), a job's led by the
number of its work bytes. -/
def readOperands (row : Row) (bs : Bytes) : Reader Instr :=
  match row with
  | .crc5 => andThen (readBytes bs) fun data r => .ok (.crc5 data, r)
  | .crc16 => andThen (readBytes bs) fun data r => .ok (.crc16 data, r)
  | .encSetaddr => andThen (readByte bs) fun addr r => .ok (.encSetaddr addr, r)
  | .encInactive => .ok (.encInactive, bs)
  | .encRead =>
    andThen (readMode bs) fun mode r => andThen (readAddr mode r) fun addr r =>
      andThen (readByte r) fun reg r => .ok (.encRead mode addr reg, r)
  | .encWrite =>
    andThen (readMode bs) fun mode r => andThen (readAddr mode r) fun addr r =>
      readRegValue (fun reg value => .encWrite mode addr reg value) r
  | .encBaud => andThen (readNat bs) fun rate r => .ok (.encBaud rate, r)
  | .encJob =>
    andThen (readByte bs) fun jobId r => andThen (readBytes r) fun work r =>
      andThen (readMask r) fun mask r => .ok (.encJob jobId work mask, r)
  | .encRreg => andThen (readByte bs) fun addr r => readRegValue (fun reg value => .encRreg addr reg value) r
  | .encRjob => readJobResult (fun jobId addr nonce version => .encRjob jobId addr nonce version) bs
  | .decPush => andThen (readBytes bs) fun data r => .ok (.decPush data, r)
  | .decStep => .ok (.decStep, bs)
  | .decPoll => .ok (.decPoll, bs)
  | .decParse => andThen (readBytes bs) fun f r => .ok (.decParse f, r)
  | .decReset => .ok (.decReset, bs)
  | .decStatus => .ok (.decStatus, bs)
  | .frameSetaddr =>
    andThen (readByte bs) fun addr r => andThen (readZero r) fun _ r => .ok (.frameSetaddr addr, r)
  | .frameWriteRegU => andThen (readByte bs) fun addr r => readRegValue (fun reg value => .frameWriteRegU addr reg value) r
  | .frameWriteRegB => andThen (readZero bs) fun _ r => readRegValue (fun reg value => .frameWriteRegB reg value) r
  | .frameReadRegU =>
    andThen (readByte bs) fun addr r => andThen (readByte r) fun reg r => .ok (.frameReadRegU addr reg, r)
  | .frameReadRegB =>
    andThen (readZero bs) fun _ r => andThen (readByte r) fun reg r => .ok (.frameReadRegB reg, r)
  | .frameChainInactive =>
    andThen (readZero bs) fun _ r => andThen (readZero r) fun _ r => .ok (.frameChainInactive, r)
  | .frameJob => readFrameJob bs
  | .frameRespReg => andThen (readByte bs) fun addr r => readRegValue (fun reg value => .frameRespReg addr reg value) r
  | .frameRespJob => readJobResult (fun jobId addr nonce version => .frameRespJob jobId addr nonce version) bs

/-- The operation at the front of some bytes and the bytes after it. -/
def decodePrefix (space : Space) : Bytes → Reader Instr
  | [] => .error .emptyRequest
  | code :: operands =>
    match rowOfCode space code with
    | none => .error (.unknownCode space code)
    | some row => readOperands row operands

/-- The operation a request's bytes are: exactly one, with nothing after it. -/
def decode (space : Space) (bs : Bytes) : Except DecodeError Instr :=
  match decodePrefix space bs with
  | .error e => .error e
  | .ok (i, []) => .ok i
  | .ok (_, _ :: _) => .error .trailingBytes

/-- The digits of `n`, at most `fuel + 1` of them; `writeNat` gives fuel enough for every `n`. -/
def writeNatDigits : Nat → Nat → Bytes
  | 0, n => [BitVec.ofNat 8 n]
  | fuel + 1, n =>
    if n < 128 then [BitVec.ofNat 8 n]
    else BitVec.ofNat 8 (128 + n % 128) :: writeNatDigits fuel (n / 128)

/-- The bytes `readNat` reads as `n`. -/
def writeNat (n : Nat) : Bytes := writeNatDigits n n

/-- The bytes `readBytes` reads as `data`. -/
def writeBytes (data : Bytes) : Bytes := writeNat data.length ++ data

/-- The bytes of a mode and of the address it takes (30_encoding.md R92). -/
def writeModeAddr : Mode → Byte → Bytes
  | .unicast, a => [0, a]
  | .broadcast, _ => [1]

/-- The bytes `readMask` reads as `mask`. -/
def writeMask : Option (BitVec 32) → Bytes
  | none => [0]
  | some m => 1 :: be32 m

/-- The operand bytes of an instruction. -/
def writeOperands : Instr → Bytes
  | .crc5 d => writeBytes d
  | .crc16 d => writeBytes d
  | .encSetaddr a => [a]
  | .encInactive => []
  | .encRead m a g => writeModeAddr m a ++ [g]
  | .encWrite m a g v => writeModeAddr m a ++ g :: be32 v
  | .encBaud n => writeNat n
  | .encJob j w m => j :: (writeBytes w ++ writeMask m)
  | .encRreg a g v => a :: g :: be32 v
  | .encRjob j a n v => j :: a :: (be32 n ++ be16 v)
  | .decPush d => writeBytes d
  | .decStep => []
  | .decPoll => []
  | .decParse f => writeBytes f
  | .decReset => []
  | .decStatus => []
  | .frameSetaddr a => [a, 0]
  | .frameWriteRegU a g v => a :: g :: be32 v
  | .frameWriteRegB g v => 0 :: g :: be32 v
  | .frameReadRegU a g => [a, g]
  | .frameReadRegB g => [0, g]
  | .frameChainInactive => [0, 0]
  | .frameJob j w => writeNat w.length ++ j :: w
  | .frameRespReg a g v => a :: g :: be32 v
  | .frameRespJob j a n v => j :: a :: (be32 n ++ be16 v)

/-- The encoding an instruction belongs to. -/
def spaceOf (i : Instr) : Space := (codeOfRow i.row).1

/-- The code byte of an instruction: its row's "match". -/
def codeOf (i : Instr) : Byte := (codeOfRow i.row).2

/-- The bytes of an instruction: its code, then its operands. -/
def encode (i : Instr) : Bytes := codeOf i :: writeOperands i

/-- The request for an instruction. -/
def requestOf (i : Instr) : Request := ⟨spaceOf i, encode i⟩

/-- The encoding a code byte of the table belongs to. The byte 0x21 is in both and is read as the interface's DEC_STEP
(log 6); a byte in neither is left to the wire, which rejects it by name. -/
def spaceOfTableByte (code : Byte) : Space :=
  match rowOfCode .interface code with
  | some _ => .interface
  | none => .wire

/-- The bytes of a table word: the first byte is the word's bits 7..0, the next its bits 15..8, and so on. -/
def tableWordBytes (nbits w : Nat) : Bytes :=
  (List.range ((nbits + 7) / 8)).map (fun k => BitVec.ofNat 8 (w >>> (8 * k)))

/-- The zero bytes after a table word: more than any row's fixed operands take. -/
def tablePadding : Bytes := List.replicate 16 0

/-- A table word as a request: the word's bytes and as many zero operand bytes as its row takes. -/
def tableRequest (nbits w : Nat) : Request :=
  let bytes := tableWordBytes nbits w ++ tablePadding
  let space := spaceOfTableByte (bytes.headD 0)
  match decodePrefix space bytes with
  | .ok (_, rest) => ⟨space, bytes.take (bytes.length - rest.length)⟩
  | .error _ => ⟨space, bytes⟩

/-- The instruction the decoder reads from a table word; `none` where it rejects the word. -/
def decodeTableWord (nbits w : Nat) : Option Instr :=
  match decode (tableRequest nbits w).space (tableRequest nbits w).bytes with
  | .ok i => some i
  | .error _ => none

end Sys2Proof
end

