-- ==== Sys2Proof/Machine/State.lean ====
section
/-! DEFINITION. The state of one block instance (10_state.md R20), what an operation returns (60_exceptions.md R200, R201),
why the block takes no step, and reset (70_reset_and_hazards.md R230, R231). -/

namespace Sys2Proof.Machine

/-- `FaultCode` of 60_exceptions.md R201: PAYLOAD_TOO_LONG with the length that exceeded LMAX. -/
inductive FaultCode where
  | payloadTooLong (length : Nat)
deriving DecidableEq, Repr

/-- The errors an operation raises (60_exceptions.md R201 kind "error"): UNSUPPORTED_CAPABILITY with the op number. -/
inductive ErrorCode where
  | unsupportedCapability (op : Byte)
deriving DecidableEq, Repr

/-- What an operation returns: its success result (30_encoding.md R90), its error or its fault (60_exceptions.md R200). -/
inductive OpResult where
  | crc5 (v : BitVec 5)
  | crc16 (v : BitVec 16)
  /-- the byte sequence an encoder operation appended -/
  | bytes (out : Bytes)
  /-- success with result "none" -/
  | done
  | scan (r : StepResult)
  | event (e : Event)
  | parsed (p : Parsed)
  /-- `(|rx|, mal, drop, fault)` of DEC_STATUS -/
  | status (rxLength : Nat) (mal drop : BitVec 32) (fault : Option FaultCode)
  | error (e : ErrorCode)
  | faulted (f : FaultCode)
deriving DecidableEq, Repr

/-- The state of one block instance: R20's record `S` (`rx`, `mal`, `drop`, `fault`), the scan cursor (R21), the TX stream
(20_memory.md R41), the frames DEC_STEP and DEC_POLL have delivered, oldest first (the operands of DEC_PARSE, 30_encoding.md
R91, 70_reset_and_hazards.md R239, log 9), the instance's arguments (R28), and the model's own two fields: what the last
operation returned (log 8) and the requests the caller has issued (log 4). -/
structure State where
  rx : Bytes
  mal : BitVec 32
  drop : BitVec 32
  fault : Option FaultCode
  cursor : Nat
  tx : Bytes
  delivered : List Bytes
  result : Option OpResult
  requests : List Request
  inst : Instance
deriving DecidableEq, Repr

/-- The stuck states: the spec gives the operation no step (60_exceptions.md R200). -/
inductive Fault where
  /-- raised by every operation but DEC_STATUS in a faulted block, and by `step` where a faulted block has no request left, so
  that no run ends there (10_state.md R29, 60_exceptions.md R217, log 10); safe: the spec says "no step", "never final" -/
  | haltedBlock
  /-- raised by DEC_PUSH beyond RX_CAPACITY (42_decoder.md R181); safe: the spec says "no step" -/
  | pushOverCapacity
deriving DecidableEq, Repr

/-- What is no operation of the block at all. -/
inductive Refusal where
  /-- raised by an arm of `exec` without a meaning; safe -/
  | notModelled (mnemonic : String)
  /-- raised by `step` for a request whose bytes are no operation (30_encoding.md R91, 60_exceptions.md R217); safe -/
  | undecodable (e : DecodeError)
  /-- raised by DEC_PARSE of bytes that DEC_STEP and DEC_POLL of this instance never delivered (30_encoding.md R91,
  60_exceptions.md R217, 70_reset_and_hazards.md R239); safe -/
  | parseOfUndeliveredBytes
deriving DecidableEq, Repr

/-- The outcome of an operation. -/
abbrev Answer := Host.Outcome State Fault Refusal

/-- Instance creation (70_reset_and_hazards.md R230): `S0`, an empty TX stream and the creator's arguments. -/
def State.create (i : Instance) : State where
  rx := []
  mal := 0
  drop := 0
  fault := none
  cursor := 0
  tx := []
  delivered := []
  result := none
  requests := []
  inst := i

/-- The machine right after reset: R230 with the arguments of log 2. -/
def State.reset : State := State.create Config.instance0

end Sys2Proof.Machine
end

