-- ==== Sys2Proof/Machine/Flags.lean ====
section
/-! DEFINITION. The two counters, the block's only status flags (10_state.md R26). -/

namespace Sys2Proof.Machine

/-- The largest value of a `u32` counter. -/
def counterMax : Nat := 2 ^ 32 - 1

/-- `sat` of 42_decoder.md R161: `min(n, 2^32 − 1)`. -/
def sat (n : Nat) : BitVec 32 := BitVec.ofNat 32 (min n counterMax)

/-- The saturating increment of R26. -/
def satInc (c : BitVec 32) : BitVec 32 := sat (c.toNat + 1)

/-- Whether the rejection that finds `mal = old` surfaces an alarm, and the count it carries (42_decoder.md R162, R168):
`old + 1 = k` for the threshold `k`. A threshold `mal` cannot reach, being a `u32`, never does (log 11). -/
def alarmAt (threshold : Option Nat) (old : BitVec 32) : Option (BitVec 32) :=
  match threshold with
  | none => none
  | some k => if old.toNat + 1 = k ∧ k ≤ counterMax then some (BitVec.ofNat 32 k) else none

end Sys2Proof.Machine
end

