-- ==== Sys2Proof/Machine/Ops.lean ====
section
/-! DEFINITION. The operations over the state that the meanings share: the fault prelude, returning a result, raising an
error, taking the fault, appending to the TX stream, and the decoder's moves of the buffer. -/

namespace Sys2Proof.Machine

/-- The fault prelude `if s.fault ≠ none then no step` (10_state.md R29, 41_encoder.md R120). -/
def whenLive (s : State) (k : Answer) : Answer :=
  match s.fault with
  | none => k
  | some _ => .fault .haltedBlock

/-- `return v` of 00_scope.md R10: the caller sees the result. -/
def returning (s : State) (r : OpResult) : State := { s with result := some r }

/-- `raise E` of 00_scope.md R10 and 60_exceptions.md R203, R204: the error is returned and nothing else changes. -/
def raiseError (s : State) (e : ErrorCode) : State := returning s (.error e)

/-- Taking the fault (60_exceptions.md R205): nothing is appended, `fault` is set, the fault is returned. There is no trap
entry beyond it and no return from it (R209, R210). -/
def takeFault (s : State) (f : FaultCode) : State := returning { s with fault := some f } (.faulted f)

/-- The outcome codes of 60_exceptions.md R201. -/
inductive OutcomeCode where
  | ok | needMore | malformedFrame | malformedAlarm | unsupportedCapability | payloadTooLong
  | transportError | timeout | addressConflict
deriving DecidableEq, Repr

/-- The number of an outcome code (60_exceptions.md R201). -/
def codeNumber : OutcomeCode → Nat
  | .ok => 0
  | .needMore => 1
  | .malformedFrame => 2
  | .malformedAlarm => 3
  | .unsupportedCapability => 4
  | .payloadTooLong => 5
  | .transportError => 6
  | .timeout => 7
  | .addressConflict => 8

/-- The outcome code of what an operation returns (60_exceptions.md R201). Codes 2, 6, 7 and 8 are never returned (R202,
R206). -/
def outcomeCode : OpResult → OutcomeCode
  | .scan .needMore => .needMore
  | .scan (.alarm _) => .malformedAlarm
  | .event .needMore => .needMore
  | .event (.alarm _) => .malformedAlarm
  | .error (.unsupportedCapability _) => .unsupportedCapability
  | .faulted (.payloadTooLong _) => .payloadTooLong
  | .crc5 _ | .crc16 _ | .bytes _ | .done | .parsed _ | .status _ _ _ _ | .scan .continued | .scan (.frame _)
  | .event (.frame _ _) => .ok

/-- `TxAppend(out); return out` (20_memory.md R41, 41_encoder.md R120). -/
def emit (s : State) (out : Bytes) : State := returning { s with tx := s.tx ++ out } (.bytes out)

/-- `discard1` of 42_decoder.md R162: one byte leaves the buffer and is counted; the cursor moves by one (10_state.md R21). -/
def discard1 (s : State) : State :=
  { s with rx := s.rx.drop 1, drop := satInc s.drop, cursor := s.cursor + 1 }

/-- The state change of `reject` of 42_decoder.md R162, R164: a discard that also counts one malformed frame. -/
def rejectOne (s : State) : State := { discard1 s with mal := satInc s.mal }

/-- Acceptance of the frame `f` (42_decoder.md R166): its bytes leave the buffer as one, `mal` is cleared, `drop` stays; the
cursor moves by the whole frame (10_state.md R21), and `f` is from now on a delivered frame (30_encoding.md R91, log 9). -/
def acceptFrame (s : State) (f : Bytes) : State :=
  { s with rx := s.rx.drop f.length, mal := 0, cursor := s.cursor + f.length, delivered := s.delivered ++ [f] }

/-- The append of DEC_PUSH (42_decoder.md R170). -/
def pushBytes (s : State) (data : Bytes) : State := { s with rx := s.rx ++ data }

/-- The clearing of DEC_RESET (42_decoder.md R174, 70_reset_and_hazards.md R231). -/
def clearDecoder (s : State) : State := { s with rx := [], mal := 0, drop := 0, cursor := 0 }

/-- Whether `n` bytes fit the receive buffer (42_decoder.md R181). -/
def fitsCapacity (capacity : Option Nat) (n : Nat) : Bool :=
  match capacity with
  | none => true
  | some c => decide (n ≤ c)

end Sys2Proof.Machine
end

