-- ==== Sys2Proof/Machine/Crc.lean ====
section
/-! DEFINITION. The CRC-5 and CRC-16 generators, units U1 and U2 (40_crc.md), and the two CRC operations. -/

namespace Sys2Proof.Machine

/-- The bits of a byte in the order they enter a CRC (20_memory.md R43). -/
def byteBits : BitOrder → Byte → List Bool
  | .msbFirst, b =>
    [b.getLsbD 7, b.getLsbD 6, b.getLsbD 5, b.getLsbD 4, b.getLsbD 3, b.getLsbD 2, b.getLsbD 1, b.getLsbD 0]

/-- The bits of a byte sequence in transmission order (40_crc.md R103). -/
def dataBits (order : BitOrder) (data : Bytes) : List Bool := data.flatMap (byteBits order)

/-- `step5` of 40_crc.md R100. -/
def step5 (poly c5 : BitVec 5) (b : Bool) : BitVec 5 :=
  if (c5.getLsbD 4 ^^ b) then (c5 <<< 1) ^^^ poly else c5 <<< 1

/-- CRC5 of 40_crc.md R101; the accumulator of the fold is the register `c5` (10_state.md R23). -/
def crc5 (cfg : Cfg) (data : Bytes) : BitVec 5 :=
  (dataBits cfg.bitOrder data).foldl (step5 cfg.crc5Poly) cfg.crc5Init ^^^ cfg.crc5XorOut

/-- `step16` of 40_crc.md R104. -/
def step16 (poly c16 : BitVec 16) (b : Bool) : BitVec 16 :=
  if (c16.getLsbD 15 ^^ b) then (c16 <<< 1) ^^^ poly else c16 <<< 1

/-- CRC16 of 40_crc.md R105; the accumulator of the fold is the register `c16` (10_state.md R24). -/
def crc16 (cfg : Cfg) (data : Bytes) : BitVec 16 :=
  (dataBits cfg.bitOrder data).foldl (step16 cfg.crc16Poly) cfg.crc16Init ^^^ cfg.crc16XorOut

/-- CRC5, op 0x00 (40_crc.md R101). -/
def execCrc5 (data : Bytes) (s : State) : Answer :=
  whenLive s (.next (returning s (.crc5 (crc5 s.inst.cfg data))))

/-- CRC16, op 0x01 (40_crc.md R105). -/
def execCrc16 (data : Bytes) (s : State) : Answer :=
  whenLive s (.next (returning s (.crc16 (crc16 s.inst.cfg data))))

end Sys2Proof.Machine
end

