-- ==== Sys2Proof/Machine/Frame.lean ====
section
/-! DEFINITION. Frames: their classes and headers (30_encoding.md R64, R65, R70), the two builders (41_encoder.md R121, R123),
the checks (40_crc.md R108, R109), the payload (30_encoding.md R62) and the parse (42_decoder.md R171). -/

namespace Sys2Proof.Machine

/-- The bytes of a preamble. -/
def preambleBytes (p : Preamble) : Bytes := [p.b0, p.b1]

/-- The frame classes of 30_encoding.md R65. -/
inductive FrameClass where
  | c5
  | c16
deriving DecidableEq, Repr

/-- `TYPE`, bits 7..5 of the header byte (30_encoding.md R64). -/
def typeOf (t : Byte) : BitVec 3 := t.extractLsb' 5 3

/-- `ALL`, bit 4 of the header byte (30_encoding.md R64). -/
def allOf (t : Byte) : Bool := t.getLsbD 4

/-- `CMD`, bits 3..0 of the header byte (30_encoding.md R64). -/
def cmdOf (t : Byte) : BitVec 4 := t.extractLsb' 0 4

/-- A header byte from its three fields (30_encoding.md R64). -/
def headerByte (type : BitVec 3) (all : Bool) (cmd : BitVec 4) : Byte := type ++ BitVec.ofBool all ++ cmd

/-- The TYPE codes of 30_encoding.md R65. -/
def typeJob : BitVec 3 := 0b001
/-- TYPE code CTL (30_encoding.md R65). -/
def typeCtl : BitVec 3 := 0b010
/-- TYPE code RREG (30_encoding.md R65). -/
def typeRreg : BitVec 3 := 0b011
/-- TYPE code RJOB (30_encoding.md R65). -/
def typeRjob : BitVec 3 := 0b100

/-- Header 0x40 (30_encoding.md R67). -/
def hSetaddr : Byte := headerByte typeCtl false 0
/-- Header 0x41 (30_encoding.md R67). -/
def hWriteRegU : Byte := headerByte typeCtl false 1
/-- Header 0x51 (30_encoding.md R67). -/
def hWriteRegB : Byte := headerByte typeCtl true 1
/-- Header 0x42 (30_encoding.md R67). -/
def hReadRegU : Byte := headerByte typeCtl false 2
/-- Header 0x52 (30_encoding.md R67). -/
def hReadRegB : Byte := headerByte typeCtl true 2
/-- Header 0x53 (30_encoding.md R67). -/
def hChainInactive : Byte := headerByte typeCtl true 3
/-- Header 0x21 (30_encoding.md R67). -/
def hJob : Byte := headerByte typeJob false 1
/-- Header 0x60 (30_encoding.md R68). -/
def hRespReg : Byte := headerByte typeRreg false 0
/-- Header 0x80 (30_encoding.md R68). -/
def hRespJob : Byte := headerByte typeRjob false 0

/-- `cls` of 30_encoding.md R65; undefined for a reserved TYPE. -/
def cls (t : Byte) : Option FrameClass :=
  if typeOf t = typeCtl then some .c5
  else if typeOf t = typeJob ∨ typeOf t = typeRreg ∨ typeOf t = typeRjob then some .c16
  else none

/-- `accepts` of 30_encoding.md R65. -/
def accepts : Direction → Byte → Bool
  | .chip, t => decide (typeOf t = typeCtl ∨ typeOf t = typeJob)
  | .host, t => decide (typeOf t = typeRreg ∨ typeOf t = typeRjob)

/-- The class of a header this direction accepts. -/
def acceptedClass (d : Direction) (t : Byte) : Option FrameClass := if accepts d t then cls t else none

/-- `minL` of 42_decoder.md R161. -/
def minL : FrameClass → Nat
  | .c5 => 3
  | .c16 => 4

/-- The preamble a decoder looks for (42_decoder.md R161). -/
def rxPreamble (i : Instance) : Preamble :=
  match i.dir with
  | .chip => i.cfg.preCmd
  | .host => i.cfg.preRsp

/-- `frame_c5` of 41_encoder.md R121. -/
def frameC5 (cfg : Cfg) (t : Byte) (p : Bytes) : Bytes :=
  let body := [t, BitVec.ofNat 8 (3 + p.length)] ++ p
  preambleBytes cfg.preCmd ++ body ++ [zext8 (crc5 cfg body)]

/-- `frame_c16` of 41_encoder.md R123: the frame, or the fault PayloadTooLong. -/
def frameC16 (cfg : Cfg) (pre : Preamble) (t : Byte) (p : Bytes) : Except FaultCode Bytes :=
  let l := 4 + p.length
  if cfg.lmax.toNat < l then .error (.payloadTooLong l)
  else
    let body := [t, BitVec.ofNat 8 l] ++ p
    .ok (preambleBytes pre ++ body ++ be16 (crc16 cfg body))

/-- The byte at an index of a frame; 0 beyond its end, where no rule looks. -/
def byteAt (f : Bytes) (i : Nat) : Byte := f.getD i 0

/-- `L` of a frame, as a number. -/
def lengthOf (f : Bytes) : Nat := (byteAt f 3).toNat

/-- `valid_c5` of 40_crc.md R108 over the span of 30_encoding.md R69. -/
def validC5 (cfg : Cfg) (f : Bytes) : Bool :=
  byteAt f (2 + lengthOf f - 1) == zext8 (crc5 cfg (slice f 2 (2 + lengthOf f - 1)))

/-- `valid_c16` of 40_crc.md R109 over the span of 30_encoding.md R69. -/
def validC16 (cfg : Cfg) (f : Bytes) : Bool :=
  [byteAt f (2 + lengthOf f - 2), byteAt f (2 + lengthOf f - 1)]
    == be16 (crc16 cfg (slice f 2 (2 + lengthOf f - 2)))

/-- `valid` of 42_decoder.md R161. -/
def valid (cfg : Cfg) : FrameClass → Bytes → Bool
  | .c5, f => validC5 cfg f
  | .c16, f => validC16 cfg f

/-- `payload` of 30_encoding.md R62. -/
def payload : FrameClass → Bytes → Bytes
  | .c5, f => slice f 4 (2 + lengthOf f - 1)
  | .c16, f => slice f 4 (2 + lengthOf f - 2)

/-- The bytes a decoder of this instance accepts as one whole frame (42_decoder.md R166): the preamble, an accepted header,
a length byte that is at least the class minimum and the frame's own, and a checksum that validates. -/
def acceptedFrame (i : Instance) (f : Bytes) : Bool :=
  match f with
  | b0 :: b1 :: t :: l :: _ =>
    match acceptedClass i.dir t with
    | none => false
    | some c =>
      b0 == (rxPreamble i).b0 && b1 == (rxPreamble i).b1 && decide (minL c ≤ l.toNat)
        && decide (f.length = 2 + l.toNat) && valid i.cfg c f
  | _ => false

/-- The parse of a control frame's payload: the first six arms of 42_decoder.md R171. -/
def parseControl (t : Byte) (l : Nat) (p : Bytes) : Parsed :=
  match p with
  | [p0, p1] =>
    if l ≠ 5 then .unrecognized
    else if t = hSetaddr ∧ p1 = 0 then .cmd (.setChipAddress p0)
    else if t = hChainInactive ∧ p0 = 0 ∧ p1 = 0 then .cmd .chainInactive
    else if t = hReadRegU then .cmd (.readRegister .unicast p0 p1)
    else if t = hReadRegB ∧ p0 = 0 then .cmd (.readRegister .broadcast 0 p1)
    else .unrecognized
  | [p0, p1, p2, p3, p4, p5] =>
    if l ≠ 9 then .unrecognized
    else if t = hWriteRegU then .cmd (.writeRegister .unicast p0 p1 (u32be p2 p3 p4 p5))
    else if t = hWriteRegB ∧ p0 = 0 then .cmd (.writeRegister .broadcast 0 p1 (u32be p2 p3 p4 p5))
    else .unrecognized
  | _ => .unrecognized

/-- The parse of a long frame's payload: the last three arms of 42_decoder.md R171. -/
def parseLong (t : Byte) (l : Nat) (p : Bytes) : Parsed :=
  if t = hJob then
    match p with
    | jobId :: work => if 5 ≤ l then .cmd (.submitJob jobId work none) else .unrecognized
    | [] => .unrecognized
  else
    match p with
    | [p0, p1, p2, p3, p4, p5] =>
      if t = hRespReg ∧ l = 10 then .rsp (.regResponse p0 p1 (u32be p2 p3 p4 p5)) else .unrecognized
    | [p0, p1, p2, p3, p4, p5, p6, p7] =>
      if t = hRespJob ∧ l = 12 then .rsp (.jobResult p0 p1 (u32be p2 p3 p4 p5) (u16be p6 p7)) else .unrecognized
    | _ => .unrecognized

/-- DEC_PARSE as a function of the bytes (42_decoder.md R171; it reads no state). -/
def parse (f : Bytes) : Parsed :=
  match cls (byteAt f 2) with
  | none => .unrecognized
  | some .c5 => parseControl (byteAt f 2) (lengthOf f) (payload .c5 f)
  | some .c16 => parseLong (byteAt f 2) (lengthOf f) (payload .c16 f)

end Sys2Proof.Machine
end

