-- ==== Sys2Proof/Machine/Decoder.lean ====
section
/-! DEFINITION. Unit U4: the frame decoder (42_decoder.md). -/

namespace Sys2Proof.Machine

/-- `reject` of 42_decoder.md R162 with its answer: Alarm at the threshold (R168), else Continue. -/
def reject (s : State) : State × StepResult :=
  (rejectOne s,
   match alarmAt s.inst.malThreshold s.mal with
   | some k => .alarm k
   | none => .continued)

/-- Parts (C) and (D) of 42_decoder.md R162 for a candidate of class `c` and length byte `l`: wait for the whole candidate,
then accept or reject it. -/
def decideCandidate (s : State) (c : FrameClass) (l : Byte) : State × StepResult :=
  if s.rx.length < 2 + l.toNat then (s, .needMore)
  else if valid s.inst.cfg c (s.rx.take (2 + l.toNat)) then
    (acceptFrame s (s.rx.take (2 + l.toNat)), .frame (s.rx.take (2 + l.toNat)))
  else reject s

/-- Part (B) of 42_decoder.md R162 for a candidate with header byte `t` and length byte `l`. -/
def screenCandidate (s : State) (t l : Byte) : State × StepResult :=
  match acceptedClass s.inst.dir t with
  | none => reject s
  | some c => if l.toNat < minL c then reject s else decideCandidate s c l

/-- DEC_STEP as a function of the state (42_decoder.md R162): the preamble search, then the candidate. -/
def scanStep (s : State) : State × StepResult :=
  match s.rx with
  | [] => (s, .needMore)
  | b0 :: rest =>
    if b0 ≠ (rxPreamble s.inst).b0 then (discard1 s, .continued)
    else
      match rest with
      | [] => (s, .needMore)
      | b1 :: rest =>
        if b1 ≠ (rxPreamble s.inst).b1 then (discard1 s, .continued)
        else
          match rest with
          | t :: l :: _ => screenCandidate s t l
          | _ => (s, .needMore)

/-- The loop of DEC_POLL (42_decoder.md R169), at most `fuel` steps of it. -/
def pollLoop : Nat → State → State × Event
  | 0, s => (s, .needMore)
  | fuel + 1, s =>
    match scanStep s with
    | (s', .continued) => pollLoop fuel s'
    | (s', .needMore) => (s', .needMore)
    | (s', .alarm n) => (s', .alarm n)
    | (s', .frame f) => (s', .frame f (parse f))

/-- DEC_POLL as a function of the state: the loop takes at most `|rx| + 1` steps (42_decoder.md R176). -/
def poll (s : State) : State × Event := pollLoop (s.rx.length + 1) s

/-- DEC_PUSH, op 0x20 (42_decoder.md R170, R181). -/
def execDecPush (data : Bytes) (s : State) : Answer :=
  whenLive s
    (if fitsCapacity s.inst.rxCapacity (s.rx.length + data.length) then .next (returning (pushBytes s data) .done)
     else .fault .pushOverCapacity)

/-- DEC_STEP, op 0x21 (42_decoder.md R162). -/
def execDecStep (s : State) : Answer := whenLive s (.next (returning (scanStep s).1 (.scan (scanStep s).2)))

/-- DEC_POLL, op 0x22 (42_decoder.md R169). -/
def execDecPoll (s : State) : Answer := whenLive s (.next (returning (poll s).1 (.event (poll s).2)))

/-- DEC_PARSE, op 0x23 (42_decoder.md R171, R180): its operand is a frame DEC_STEP or DEC_POLL delivered (30_encoding.md R91,
70_reset_and_hazards.md R239, log 9). -/
def execDecParse (f : Bytes) (s : State) : Answer :=
  whenLive s
    (if f ∈ s.delivered then .next (returning s (.parsed (parse f))) else .refused .parseOfUndeliveredBytes)

/-- DEC_RESET, op 0x24 (42_decoder.md R174). -/
def execDecReset (s : State) : Answer := whenLive s (.next (returning (clearDecoder s) .done))

/-- DEC_STATUS, op 0x25 (42_decoder.md R175): the one operation with a step in a faulted block. -/
def execDecStatus (s : State) : Answer := .next (returning s (.status s.rx.length s.mal s.drop s.fault))

end Sys2Proof.Machine
end

