-- ==== Sys2Proof/Machine/Encoder.lean ====
section
/-! DEFINITION. Unit U3: the command encoders and the response encoders (41_encoder.md), and which operation encodes a
command or a response (30_encoding.md R61, R90, R93). -/

namespace Sys2Proof.Machine

/-- `CAP.vr_write(m)` (10_state.md R27). -/
def vrWriteOf (cap : Cap) (m : BitVec 32) : RegWrite :=
  match cap.vrWrite with
  | .masked reg keep set => ⟨reg, (m &&& keep) ||| set⟩
  | .family id => ⟨(Config.familyVrWrite id m).1, (Config.familyVrWrite id m).2⟩

/-- `CAP.baud_write(rate)` (10_state.md R27). -/
def baudWriteOf (cap : Cap) (rate : Nat) : Option RegWrite :=
  match cap.baudWrite with
  | .rows table => (table.find? (fun r => r.1 == rate)).map (·.2)
  | .family id => (Config.familyBaudWrite id rate).map (fun r => ⟨r.1, r.2⟩)

/-- The payload of a register write (30_encoding.md R67). -/
def writePayload (addr reg : Byte) (value : BitVec 32) : Bytes := addr :: reg :: be32 value

/-- The broadcast WRITE_REG frame of a register write (41_encoder.md R127, R128, R133). -/
def broadcastWrite (cfg : Cfg) (w : RegWrite) : Bytes := frameC5 cfg hWriteRegB (writePayload 0 w.reg w.value)

/-- An operation whose output is one control frame. -/
def encodeControl (t : Byte) (p : Bytes) (s : State) : Answer := whenLive s (.next (emit s (frameC5 s.inst.cfg t p)))

/-- An operation whose output is some bytes and then one long frame, or the long frame's fault (41_encoder.md R123, R133). -/
def encodeLong (before : Bytes) (pre : Preamble) (t : Byte) (p : Bytes) (s : State) : Answer :=
  whenLive s (.next
    (match frameC16 s.inst.cfg pre t p with
     | .error f => takeFault s f
     | .ok out => emit s (before ++ out)))

/-- The header and the address byte of a read in a mode (41_encoder.md R125, R127). -/
def readFrame (mode : Mode) (addr reg : Byte) : Byte × Bytes :=
  match mode with
  | .unicast => (hReadRegU, [addr, reg])
  | .broadcast => (hReadRegB, [0, reg])

/-- The header and the payload of a write in a mode (41_encoder.md R126, R127). -/
def writeFrame (mode : Mode) (addr reg : Byte) (value : BitVec 32) : Byte × Bytes :=
  match mode with
  | .unicast => (hWriteRegU, writePayload addr reg value)
  | .broadcast => (hWriteRegB, writePayload 0 reg value)

/-- ENC_SETADDR, op 0x10 (41_encoder.md R122). -/
def execEncSetaddr (addr : Byte) (s : State) : Answer := encodeControl hSetaddr [addr, 0] s

/-- ENC_INACTIVE, op 0x11 (41_encoder.md R124). -/
def execEncInactive (s : State) : Answer := encodeControl hChainInactive [0, 0] s

/-- ENC_READ, op 0x12 (41_encoder.md R125). -/
def execEncRead (mode : Mode) (addr reg : Byte) (s : State) : Answer :=
  encodeControl (readFrame mode addr reg).1 (readFrame mode addr reg).2 s

/-- ENC_WRITE, op 0x13 (41_encoder.md R126). -/
def execEncWrite (mode : Mode) (addr reg : Byte) (value : BitVec 32) (s : State) : Answer :=
  encodeControl (writeFrame mode addr reg value).1 (writeFrame mode addr reg value).2 s

/-- ENC_BAUD, op 0x14 (41_encoder.md R128). -/
def execEncBaud (rate : Nat) (s : State) : Answer :=
  whenLive s (.next
    (match baudWriteOf s.inst.cap rate with
     | none => raiseError s (.unsupportedCapability 0x14)
     | some w => emit s (broadcastWrite s.inst.cfg w)))

/-- ENC_JOB, op 0x15 (41_encoder.md R130, R131, R133; the order of the checks is R134). -/
def execEncJob (jobId : Byte) (work : Bytes) (mask : Option (BitVec 32)) (s : State) : Answer :=
  match mask with
  | none => encodeLong [] s.inst.cfg.preCmd hJob (jobId :: work) s
  | some m =>
    if s.inst.cap.vrSupported then
      encodeLong (broadcastWrite s.inst.cfg (vrWriteOf s.inst.cap m)) s.inst.cfg.preCmd hJob (jobId :: work) s
    else whenLive s (.next (raiseError s (.unsupportedCapability 0x15)))

/-- ENC_RREG, op 0x16 (41_encoder.md R136). -/
def execEncRreg (addr reg : Byte) (value : BitVec 32) (s : State) : Answer :=
  encodeLong [] s.inst.cfg.preRsp hRespReg (addr :: reg :: be32 value) s

/-- ENC_RJOB, op 0x17 (41_encoder.md R137). -/
def execEncRjob (jobId addr : Byte) (nonce : BitVec 32) (version : BitVec 16) (s : State) : Answer :=
  encodeLong [] s.inst.cfg.preRsp hRespJob (jobId :: addr :: (be32 nonce ++ be16 version)) s

/-- The operation that encodes a command: the source's `encode(command)` split by variant (30_encoding.md R90). -/
def instrOfCommand : Command → Instr
  | .setChipAddress addr => .encSetaddr addr
  | .chainInactive => .encInactive
  | .readRegister mode addr reg => .encRead mode addr reg
  | .writeRegister mode addr reg value => .encWrite mode addr reg value
  | .setBaudRate rate => .encBaud rate
  | .submitJob jobId work mask => .encJob jobId work mask

/-- The operation that encodes a response (30_encoding.md R90). -/
def instrOfResponse : Response → Instr
  | .regResponse addr reg value => .encRreg addr reg value
  | .jobResult jobId addr nonce version => .encRjob jobId addr nonce version

/-- The commands a command is sent as: itself, a broadcast's address as 0, and the expansions of 30_encoding.md R93; none
when the capability cannot realise it (41_encoder.md R128, R133). -/
def sentAs (cap : Cap) : Command → Option (List Command)
  | .setChipAddress addr => some [.setChipAddress addr]
  | .chainInactive => some [.chainInactive]
  | .readRegister .unicast addr reg => some [.readRegister .unicast addr reg]
  | .readRegister .broadcast _ reg => some [.readRegister .broadcast 0 reg]
  | .writeRegister .unicast addr reg value => some [.writeRegister .unicast addr reg value]
  | .writeRegister .broadcast _ reg value => some [.writeRegister .broadcast 0 reg value]
  | .setBaudRate rate =>
    match baudWriteOf cap rate with
    | none => none
    | some w => some [.writeRegister .broadcast 0 w.reg w.value]
  | .submitJob jobId work none => some [.submitJob jobId work none]
  | .submitJob jobId work (some m) =>
    if cap.vrSupported then
      some [.writeRegister .broadcast 0 (vrWriteOf cap m).reg (vrWriteOf cap m).value, .submitJob jobId work none]
    else none

end Sys2Proof.Machine
end

