-- ==== Sys2Proof/Machine/Wire.lean ====
section
/-! DEFINITION. The wire header rows of the opcode table (30_encoding.md R67, R68). Each row's meaning is the frame with its
header, built from its fields by the rule the row names and put on the TX stream (log 7). Receiving such a frame is
DEC_STEP and DEC_POLL (Machine/Decoder.lean). -/

namespace Sys2Proof.Machine

/-- FRAME_SETADDR, header 0x40 (30_encoding.md R67, 41_encoder.md R122). -/
def execFrameSetaddr (addr : Byte) (s : State) : Answer := encodeControl hSetaddr [addr, 0] s

/-- FRAME_WRITE_REG_U, header 0x41 (30_encoding.md R67, 41_encoder.md R126). -/
def execFrameWriteRegU (addr reg : Byte) (value : BitVec 32) (s : State) : Answer :=
  encodeControl hWriteRegU (writePayload addr reg value) s

/-- FRAME_WRITE_REG_B, header 0x51 (30_encoding.md R67, 41_encoder.md R126, R127). -/
def execFrameWriteRegB (reg : Byte) (value : BitVec 32) (s : State) : Answer :=
  encodeControl hWriteRegB (writePayload 0 reg value) s

/-- FRAME_READ_REG_U, header 0x42 (30_encoding.md R67, 41_encoder.md R125). -/
def execFrameReadRegU (addr reg : Byte) (s : State) : Answer := encodeControl hReadRegU [addr, reg] s

/-- FRAME_READ_REG_B, header 0x52 (30_encoding.md R67, 41_encoder.md R125, R127). -/
def execFrameReadRegB (reg : Byte) (s : State) : Answer := encodeControl hReadRegB [0, reg] s

/-- FRAME_CHAIN_INACTIVE, header 0x53 (30_encoding.md R67, 41_encoder.md R124). -/
def execFrameChainInactive (s : State) : Answer := encodeControl hChainInactive [0, 0] s

/-- FRAME_JOB, header 0x21 (30_encoding.md R67, 41_encoder.md R130, R131). -/
def execFrameJob (jobId : Byte) (work : Bytes) (s : State) : Answer :=
  encodeLong [] s.inst.cfg.preCmd hJob (jobId :: work) s

/-- FRAME_RESP_REG, header 0x60 (30_encoding.md R68, 41_encoder.md R136). -/
def execFrameRespReg (addr reg : Byte) (value : BitVec 32) (s : State) : Answer :=
  encodeLong [] s.inst.cfg.preRsp hRespReg (addr :: reg :: be32 value) s

/-- FRAME_RESP_JOB, header 0x80 (30_encoding.md R68, 41_encoder.md R137). -/
def execFrameRespJob (jobId addr : Byte) (nonce : BitVec 32) (version : BitVec 16) (s : State) : Answer :=
  encodeLong [] s.inst.cfg.preRsp hRespJob (jobId :: addr :: (be32 nonce ++ be16 version)) s

end Sys2Proof.Machine
end

