-- ==== Sys2Proof/Machine/Dispatch.lean ====
section
/-! DEFINITION. One arm per instruction. -/

namespace Sys2Proof.Machine

def exec (i : Instr) (s : State) : Host.Outcome State Fault Refusal :=
  match i with
  -- units U1 and U2
  | .crc5 data => Sys2Proof.Machine.execCrc5 data s
  | .crc16 data => Sys2Proof.Machine.execCrc16 data s
  -- unit U3
  | .encSetaddr addr => Sys2Proof.Machine.execEncSetaddr addr s
  | .encInactive => Sys2Proof.Machine.execEncInactive s
  | .encRead mode addr reg => Sys2Proof.Machine.execEncRead mode addr reg s
  | .encWrite mode addr reg value => Sys2Proof.Machine.execEncWrite mode addr reg value s
  | .encBaud rate => Sys2Proof.Machine.execEncBaud rate s
  | .encJob jobId work mask => Sys2Proof.Machine.execEncJob jobId work mask s
  | .encRreg addr reg value => Sys2Proof.Machine.execEncRreg addr reg value s
  | .encRjob jobId addr nonce version => Sys2Proof.Machine.execEncRjob jobId addr nonce version s
  -- unit U4
  | .decPush data => Sys2Proof.Machine.execDecPush data s
  | .decStep => Sys2Proof.Machine.execDecStep s
  | .decPoll => Sys2Proof.Machine.execDecPoll s
  | .decParse f => Sys2Proof.Machine.execDecParse f s
  | .decReset => Sys2Proof.Machine.execDecReset s
  | .decStatus => Sys2Proof.Machine.execDecStatus s
  -- the wire header codes
  | .frameSetaddr addr => Sys2Proof.Machine.execFrameSetaddr addr s
  | .frameWriteRegU addr reg value => Sys2Proof.Machine.execFrameWriteRegU addr reg value s
  | .frameWriteRegB reg value => Sys2Proof.Machine.execFrameWriteRegB reg value s
  | .frameReadRegU addr reg => Sys2Proof.Machine.execFrameReadRegU addr reg s
  | .frameReadRegB reg => Sys2Proof.Machine.execFrameReadRegB reg s
  | .frameChainInactive => Sys2Proof.Machine.execFrameChainInactive s
  | .frameJob jobId work => Sys2Proof.Machine.execFrameJob jobId work s
  | .frameRespReg addr reg value => Sys2Proof.Machine.execFrameRespReg addr reg value s
  | .frameRespJob jobId addr nonce version => Sys2Proof.Machine.execFrameRespJob jobId addr nonce version s

end Sys2Proof.Machine
end

