-- ==== Sys2Proof/Machine/Step.lean ====
section
/-! DEFINITION. One step of the block: the next request the caller has issued, decoded and run (20_memory.md R51, log 4). -/

namespace Sys2Proof.Machine

/-- One step. With no request pending a live block does nothing (60_exceptions.md R216, log 14), and a faulted one, which is
never a final state of a run, is stuck (10_state.md R29, log 10); otherwise the first request is taken and its operation is
one atomic transition (20_memory.md R48). -/
def step (s : State) : Host.Outcome State Fault Refusal :=
  match s.requests with
  | [] => whenLive s (.next s)
  | r :: rest =>
    match decode r.space r.bytes with
    | .error e => .refused (.undecodable e)
    | .ok i => exec i { s with requests := rest }

/-- `s` with the instruction of a table word as the one request pending: what the caller's issuing it does (log 4). -/
def State.withFetchWord (s : State) (nbits w : Nat) : State := { s with requests := [tableRequest nbits w] }

end Sys2Proof.Machine
end

