-- ==== Sys2Proof/Safety.lean ====
section
/-! DEFINITION. The terms the claims use: the frames written out byte by byte, the caller's loop of polling, the live
candidate of 42_decoder.md R178, the end of a run, and the invariant of the state. -/

namespace Sys2Proof.Machine

/-- A control frame around a body `[T, L] ++ payload` (30_encoding.md R62). -/
def controlFrame (cfg : Cfg) (body : Bytes) : Bytes :=
  [cfg.preCmd.b0, cfg.preCmd.b1] ++ body ++ [zext8 (crc5 cfg body)]

/-- A long frame around a body `[T, L] ++ payload` (30_encoding.md R62). -/
def longFrame (cfg : Cfg) (pre : Preamble) (body : Bytes) : Bytes :=
  [pre.b0, pre.b1] ++ body ++ be16 (crc16 cfg body)

/-- The body of a job frame (30_encoding.md R67). -/
def jobBody (jobId : Byte) (work : Bytes) : Bytes := [0x21, BitVec.ofNat 8 (5 + work.length), jobId] ++ work

/-- `s` after an encoder operation that succeeded with output `out` (41_encoder.md R120 (c), (d)). -/
def sent (s : State) (out : Bytes) : State := { s with tx := s.tx ++ out, result := some (.bytes out) }

/-- `s` after the fault of a long frame of length byte `l` (60_exceptions.md R205). -/
def tooLong (s : State) (l : Nat) : State :=
  { s with fault := some (.payloadTooLong l), result := some (.faulted (.payloadTooLong l)) }

/-- `s` after an operation whose one visible effect is what it returned. -/
def answered (s : State) (r : OpResult) : State := { s with result := some r }

/-- The encoder operations, ops 0x10 to 0x17 (41_encoder.md R120), and the nine wire header rows, which the model counts
among them (log 7). -/
def isEncoder : Instr → Bool
  | .encSetaddr _ | .encInactive | .encRead _ _ _ | .encWrite _ _ _ _ | .encBaud _ | .encJob _ _ _ | .encRreg _ _ _
  | .encRjob _ _ _ _ | .frameSetaddr _ | .frameWriteRegU _ _ _ | .frameWriteRegB _ _ | .frameReadRegU _ _
  | .frameReadRegB _ | .frameChainInactive | .frameJob _ _ | .frameRespReg _ _ _ | .frameRespJob _ _ _ _ => true
  | .crc5 _ | .crc16 _ | .decPush _ | .decStep | .decPoll | .decParse _ | .decReset | .decStatus => false

/-- The caller polls until NeedMore, at most `fuel` polls: the state it ends in and the events it saw before NeedMore. -/
def pollUntilNeedMore : Nat → State → State × List Event
  | 0, s => (s, [])
  | fuel + 1, s =>
    match exec .decPoll s with
    | .next t =>
      match t.result with
      | some (.event (.frame f v)) => ((pollUntilNeedMore fuel t).1, .frame f v :: (pollUntilNeedMore fuel t).2)
      | some (.event (.alarm n)) => ((pollUntilNeedMore fuel t).1, .alarm n :: (pollUntilNeedMore fuel t).2)
      | _ => (t, [])
    | _ => (s, [])

/-- The caller pushes some bytes and polls until NeedMore; every poll but the last takes a byte from the buffer, so the
fuel is enough. -/
def pushAndPoll (data : Bytes) (s : State) : State × List Event :=
  match exec (.decPush data) s with
  | .next t => pollUntilNeedMore (t.rx.length + 1) t
  | _ => (s, [])

/-- The caller pushes chunks one after another and polls until NeedMore after each (42_decoder.md R182). -/
def feed : List Bytes → State → State × List Event
  | [], s => (s, [])
  | chunk :: chunks, s =>
    ((feed chunks (pushAndPoll chunk s).1).1, (pushAndPoll chunk s).2 ++ (feed chunks (pushAndPoll chunk s).1).2)

/-- Every push of a feed fits the receive buffer at its time (42_decoder.md R181). -/
def feedFits : List Bytes → State → Bool
  | [], _ => true
  | chunk :: chunks, s =>
    fitsCapacity s.inst.rxCapacity (s.rx.length + chunk.length) && feedFits chunks (pushAndPoll chunk s).1

/-- The state after `n` DEC_STEPs that all answer Continue; `none` where one answers otherwise (42_decoder.md R176). -/
def continueSteps : Nat → State → Option State
  | 0, s => some s
  | n + 1, s =>
    match exec .decStep s with
    | .next t => if t.result = some (.scan .continued) then continueSteps n t else none
    | _ => none

/-- The event of DEC_POLL for the step result that ends its loop (42_decoder.md R169); a Continue does not end it. -/
def eventOfStep : StepResult → Event
  | .continued | .needMore => .needMore
  | .frame f => .frame f (parse f)
  | .alarm n => .alarm n

/-- The frame of an event. -/
def eventFrame : Event → Option Bytes
  | .frame f _ => some f
  | .needMore | .alarm _ => none

/-- The frame bytes of an event. -/
def eventBytes (e : Event) : Bytes := (eventFrame e).getD []

/-- The parsed value of an event. -/
def eventParsed : Event → Option Parsed
  | .frame _ v => some v
  | .needMore | .alarm _ => none

/-- A live candidate at index `i` of a stream (42_decoder.md R178): a preamble with its four bytes present, an accepted
header and a large enough length byte, that either runs past the end of the stream or validates. -/
def LiveCandidate (inst : Instance) (stream : Bytes) (i : Nat) : Prop :=
  i + 4 ≤ stream.length ∧
  byteAt stream i = (rxPreamble inst).b0 ∧ byteAt stream (i + 1) = (rxPreamble inst).b1 ∧
  ∃ c, acceptedClass inst.dir (byteAt stream (i + 2)) = some c ∧ minL c ≤ (byteAt stream (i + 3)).toNat ∧
    (stream.length < i + 2 + (byteAt stream (i + 3)).toNat ∨
      valid inst.cfg c (slice stream i (i + 2 + (byteAt stream (i + 3)).toNat)) = true)

/-- A final state of a run: every request is taken and the block is live; a faulted state is never one (10_state.md R29,
60_exceptions.md R217, log 10). -/
def Final (s : State) : Prop := s.requests = [] ∧ s.fault = none

/-- An observation of a run from `s`: the run ends, and `P` holds of its final state. -/
def Observation (P : State → Prop) (s : State) : Prop :=
  ∃ (n : Nat) (t : State), Sys2Proof.core.run n s = .next t ∧ Final t ∧ P t

/-- What every run keeps true of the state. -/
structure Inv (s : State) : Prop where
  /-- the buffer holds at most RX_CAPACITY bytes (10_state.md R20) -/
  capacity : fitsCapacity s.inst.rxCapacity s.rx.length = true
  /-- every malformed frame was also a discarded byte (10_state.md R26) -/
  mal_le_drop : s.mal.toNat ≤ s.drop.toNat
  /-- every discarded byte moved the scan cursor (10_state.md R21) -/
  drop_le_cursor : s.drop.toNat ≤ s.cursor
  /-- the one fault is a length beyond LMAX (60_exceptions.md R205) -/
  fault_length : ∀ n, s.fault = some (.payloadTooLong n) → s.inst.cfg.lmax.toNat < n
  /-- a fault that was returned is the sticky fault (10_state.md R29) -/
  fault_returned : ∀ f, s.result = some (.faulted f) → s.fault = some f
  /-- only frames whose checksum validates were ever delivered (42_decoder.md R166, R167) -/
  delivered_valid : ∀ f, f ∈ s.delivered → acceptedFrame s.inst f = true
  /-- a frame DEC_STEP returned is a delivered one (30_encoding.md R91) -/
  step_frame_delivered : ∀ f, s.result = some (.scan (.frame f)) → f ∈ s.delivered
  /-- so is a frame DEC_POLL returned, and it came with its own parse (42_decoder.md R169) -/
  poll_frame_delivered : ∀ f v, s.result = some (.event (.frame f v)) → f ∈ s.delivered ∧ v = parse f

end Sys2Proof.Machine
end

