-- ==== Sys2Proof/Certificates/Slice0/Obligations.lean ====
section
/-! DEFINITION. The statements for the provers, from the numbered rules of spec/. Every statement holds for every
configuration `Cfg`, capability `CAP`, direction, threshold and capacity the state holds, unless it says otherwise. The
wire bytes in them are the spec's own decisions (30_encoding.md R94, log 12). A state's `result` field is what the operation
returned (log 8); `requests` is never touched by an operation; `cursor` is R21's scan cursor, in the form of log 13. -/

open Sys2Proof Sys2Proof.Machine

/-! ## The CRC generators (40_crc.md) -/

/-- R100, R101: CRC5 returns the register after every bit of every byte, most significant bit first, and changes nothing
else; in a faulted block it has no step. -/
def Obligations.Crc5ReturnsRegisterAfterAllBits : Prop :=
  ∀ (s : State) (data : Bytes),
    (s.fault = none → exec (.crc5 data) s = .next (answered s (.crc5
      (((data.flatMap fun b => [b.getLsbD 7, b.getLsbD 6, b.getLsbD 5, b.getLsbD 4, b.getLsbD 3, b.getLsbD 2,
          b.getLsbD 1, b.getLsbD 0]).foldl
        (fun (c : BitVec 5) bit => if (c.getLsbD 4 ^^ bit) = true then (c <<< 1) ^^^ s.inst.cfg.crc5Poly else c <<< 1)
        s.inst.cfg.crc5Init) ^^^ s.inst.cfg.crc5XorOut)))) ∧
    (∀ f, s.fault = some f → exec (.crc5 data) s = .fault .haltedBlock)

/-- R104, R105: the same for CRC16. -/
def Obligations.Crc16ReturnsRegisterAfterAllBits : Prop :=
  ∀ (s : State) (data : Bytes),
    (s.fault = none → exec (.crc16 data) s = .next (answered s (.crc16
      (((data.flatMap fun b => [b.getLsbD 7, b.getLsbD 6, b.getLsbD 5, b.getLsbD 4, b.getLsbD 3, b.getLsbD 2,
          b.getLsbD 1, b.getLsbD 0]).foldl
        (fun (c : BitVec 16) bit => if (c.getLsbD 15 ^^ bit) = true then (c <<< 1) ^^^ s.inst.cfg.crc16Poly else c <<< 1)
        s.inst.cfg.crc16Init) ^^^ s.inst.cfg.crc16XorOut)))) ∧
    (∀ f, s.fault = some f → exec (.crc16 data) s = .fault .haltedBlock)

/-- The polynomial over GF(2) of a bit sequence, first bit the highest power (40_crc.md R103). -/
noncomputable def Sys2Proof.Machine.bitsPoly (bits : List Bool) : Polynomial (ZMod 2) :=
  bits.foldl (fun p b => Polynomial.X * p + (if b then 1 else 0)) 0

/-- The bits of a register, the highest first. -/
def Sys2Proof.Machine.registerBits {w : Nat} (v : BitVec w) : List Bool := (List.range w).map (fun i => v.getMsbD i)

/-- R103: with no output XOR, CRC5 is the remainder of `x^5 · m(x) + init · x^(8n)` by `x^5 + poly`. -/
def Obligations.Crc5IsPolynomialRemainder : Prop :=
  ∀ (s : State) (data : Bytes), s.fault = none → s.inst.cfg.crc5XorOut = 0 →
    ∃ (t : State) (v : BitVec 5), exec (.crc5 data) s = .next t ∧ t.result = some (.crc5 v) ∧
      bitsPoly (registerBits v) =
        (Polynomial.X ^ 5 * bitsPoly (dataBits .msbFirst data)
            + bitsPoly (registerBits s.inst.cfg.crc5Init) * Polynomial.X ^ (8 * data.length))
          %ₘ (Polynomial.X ^ 5 + bitsPoly (registerBits s.inst.cfg.crc5Poly))

/-- R106: the same for CRC16 with width 16. -/
def Obligations.Crc16IsPolynomialRemainder : Prop :=
  ∀ (s : State) (data : Bytes), s.fault = none → s.inst.cfg.crc16XorOut = 0 →
    ∃ (t : State) (v : BitVec 16), exec (.crc16 data) s = .next t ∧ t.result = some (.crc16 v) ∧
      bitsPoly (registerBits v) =
        (Polynomial.X ^ 16 * bitsPoly (dataBits .msbFirst data)
            + bitsPoly (registerBits s.inst.cfg.crc16Init) * Polynomial.X ^ (8 * data.length))
          %ₘ (Polynomial.X ^ 16 + bitsPoly (registerBits s.inst.cfg.crc16Poly))

/-- R107: with no output XOR, CRC16 over data and its own check bytes is 0, and only the right check bytes give 0. The second
half needs a polynomial with a constant term, as the spec's 0x1021 has; the spec's `Cfg` meets both conditions. -/
def Obligations.Crc16ResidueIsZero : Prop :=
  ∀ (cfg : Cfg) (data : Bytes) (c0 c1 : Byte), cfg.crc16XorOut = 0 →
    crc16 cfg (data ++ be16 (crc16 cfg data)) = 0 ∧
    (cfg.crc16Poly.getLsbD 0 = true → crc16 cfg (data ++ [c0, c1]) = 0 → [c0, c1] = be16 (crc16 cfg data))

/-- R110: both CRCs are affine: `CRC(a ⊕ b) = CRC(a) ⊕ CRC(b) ⊕ CRC(z)` for inputs of equal length. -/
def Obligations.CrcOfXorIsXorOfCrcs : Prop :=
  ∀ (cfg : Cfg) (a b : Bytes), a.length = b.length →
    crc5 cfg (List.zipWith (· ^^^ ·) a b) = crc5 cfg a ^^^ crc5 cfg b ^^^ crc5 cfg (List.replicate a.length 0) ∧
    crc16 cfg (List.zipWith (· ^^^ ·) a b) = crc16 cfg a ^^^ crc16 cfg b ^^^ crc16 cfg (List.replicate a.length 0)

/-! ## The encoder (41_encoder.md) -/

/-- R122: ENC_SETADDR sends `PRE_CMD 40 05 addr 00` and its CRC-5 and returns it; nothing else changes. In a faulted block it
has no step. -/
def Obligations.EncSetaddrSendsItsFrame : Prop :=
  ∀ (s : State) (addr : Byte),
    (s.fault = none → exec (.encSetaddr addr) s = .next (sent s (controlFrame s.inst.cfg [0x40, 0x05, addr, 0x00]))) ∧
    (∀ f, s.fault = some f → exec (.encSetaddr addr) s = .fault .haltedBlock)

/-- R124: ENC_INACTIVE sends `PRE_CMD 53 05 00 00` and its CRC-5. -/
def Obligations.EncInactiveSendsItsFrame : Prop :=
  ∀ (s : State),
    (s.fault = none → exec .encInactive s = .next (sent s (controlFrame s.inst.cfg [0x53, 0x05, 0x00, 0x00]))) ∧
    (∀ f, s.fault = some f → exec .encInactive s = .fault .haltedBlock)

/-- R125: ENC_READ sends header 42 with the address, or header 52 with address byte 0 whatever address was passed. -/
def Obligations.EncReadSendsItsFrame : Prop :=
  ∀ (s : State) (addr reg : Byte),
    (s.fault = none →
      exec (.encRead .unicast addr reg) s = .next (sent s (controlFrame s.inst.cfg [0x42, 0x05, addr, reg])) ∧
      exec (.encRead .broadcast addr reg) s = .next (sent s (controlFrame s.inst.cfg [0x52, 0x05, 0x00, reg]))) ∧
    (∀ f mode, s.fault = some f → exec (.encRead mode addr reg) s = .fault .haltedBlock)

/-- R126: ENC_WRITE sends header 41 or 51, the address byte (0 in broadcast), the register and the value, most significant
byte first. -/
def Obligations.EncWriteSendsItsFrame : Prop :=
  ∀ (s : State) (addr reg v3 v2 v1 v0 : Byte),
    (s.fault = none →
      exec (.encWrite .unicast addr reg (v3 ++ v2 ++ v1 ++ v0)) s
        = .next (sent s (controlFrame s.inst.cfg [0x41, 0x09, addr, reg, v3, v2, v1, v0])) ∧
      exec (.encWrite .broadcast addr reg (v3 ++ v2 ++ v1 ++ v0)) s
        = .next (sent s (controlFrame s.inst.cfg [0x51, 0x09, 0x00, reg, v3, v2, v1, v0]))) ∧
    (∀ f mode, s.fault = some f → exec (.encWrite mode addr reg (v3 ++ v2 ++ v1 ++ v0)) s = .fault .haltedBlock)

/-- R128: ENC_BAUD with a rate the capability realises sends the broadcast register write it expands to; with another rate it
returns UNSUPPORTED_CAPABILITY(0x14) and nothing else changes. -/
def Obligations.EncBaudFollowsItsRule : Prop :=
  ∀ (s : State) (rate : Nat),
    (s.fault = none →
      (∀ reg v3 v2 v1 v0 : Byte, baudWriteOf s.inst.cap rate = some ⟨reg, v3 ++ v2 ++ v1 ++ v0⟩ →
        exec (.encBaud rate) s = .next (sent s (controlFrame s.inst.cfg [0x51, 0x09, 0x00, reg, v3, v2, v1, v0]))) ∧
      (baudWriteOf s.inst.cap rate = none →
        exec (.encBaud rate) s = .next (answered s (.error (.unsupportedCapability 0x14))))) ∧
    (∀ f, s.fault = some f → exec (.encBaud rate) s = .fault .haltedBlock)

/-- R130, R133, R134: the whole rule of ENC_JOB, in the order of its checks: a faulted block, a mask the capability does not
support (UNSUPPORTED_CAPABILITY(0x15), whatever the length), a length beyond LMAX (the fault, nothing appended), and then
the job frame, after the broadcast write of `CAP.vr_write(m)` if there is a mask, in one append. -/
def Obligations.EncJobFollowsItsRule : Prop :=
  ∀ (s : State) (jobId : Byte) (work : Bytes),
    (∀ f mask, s.fault = some f → exec (.encJob jobId work mask) s = .fault .haltedBlock) ∧
    (∀ m, s.fault = none → s.inst.cap.vrSupported = false →
      exec (.encJob jobId work (some m)) s = .next (answered s (.error (.unsupportedCapability 0x15)))) ∧
    (∀ mask, s.fault = none → (mask = none ∨ s.inst.cap.vrSupported = true) →
      s.inst.cfg.lmax.toNat < 5 + work.length →
      exec (.encJob jobId work mask) s = .next (tooLong s (5 + work.length))) ∧
    (s.fault = none → 5 + work.length ≤ s.inst.cfg.lmax.toNat →
      exec (.encJob jobId work none) s
        = .next (sent s (longFrame s.inst.cfg s.inst.cfg.preCmd (jobBody jobId work)))) ∧
    (∀ (m : BitVec 32) (reg v3 v2 v1 v0 : Byte), s.fault = none → s.inst.cap.vrSupported = true →
      vrWriteOf s.inst.cap m = ⟨reg, v3 ++ v2 ++ v1 ++ v0⟩ → 5 + work.length ≤ s.inst.cfg.lmax.toNat →
      exec (.encJob jobId work (some m)) s
        = .next (sent s (controlFrame s.inst.cfg [0x51, 0x09, 0x00, reg, v3, v2, v1, v0]
            ++ longFrame s.inst.cfg s.inst.cfg.preCmd (jobBody jobId work))))

/-- R136: ENC_RREG sends `PRE_RSP 60 0A addr reg value` and its CRC-16 (the spec's LMAX is 255, and R136 says that the
length is never above it; for an LMAX below 10 see ResponseBeyondLmaxFaults). -/
def Obligations.EncRregSendsItsFrame : Prop :=
  ∀ (s : State) (addr reg v3 v2 v1 v0 : Byte), 10 ≤ s.inst.cfg.lmax.toNat →
    (s.fault = none → exec (.encRreg addr reg (v3 ++ v2 ++ v1 ++ v0)) s
      = .next (sent s (longFrame s.inst.cfg s.inst.cfg.preRsp [0x60, 0x0A, addr, reg, v3, v2, v1, v0]))) ∧
    (∀ f, s.fault = some f → exec (.encRreg addr reg (v3 ++ v2 ++ v1 ++ v0)) s = .fault .haltedBlock)

/-- R137: ENC_RJOB sends `PRE_RSP 80 0C job_id addr nonce version` and its CRC-16 (for an LMAX below 12 see
ResponseBeyondLmaxFaults). -/
def Obligations.EncRjobSendsItsFrame : Prop :=
  ∀ (s : State) (jobId addr n3 n2 n1 n0 r1 r0 : Byte), 12 ≤ s.inst.cfg.lmax.toNat →
    (s.fault = none → exec (.encRjob jobId addr (n3 ++ n2 ++ n1 ++ n0) (r1 ++ r0)) s
      = .next (sent s (longFrame s.inst.cfg s.inst.cfg.preRsp
          [0x80, 0x0C, jobId, addr, n3, n2, n1, n0, r1, r0]))) ∧
    (∀ f, s.fault = some f → exec (.encRjob jobId addr (n3 ++ n2 ++ n1 ++ n0) (r1 ++ r0)) s = .fault .haltedBlock)

/-- R123 under a configuration whose LMAX is below a response frame's length: the response encoders and the response rows
fault. That `frame_c16`'s check is theirs too is the model's reading: log 15 (with the spec's LMAX of 255 it never happens). -/
def Obligations.ResponseBeyondLmaxFaults : Prop :=
  ∀ (s : State) (a b : Byte) (v : BitVec 32) (w : BitVec 16), s.fault = none →
    (s.inst.cfg.lmax.toNat < 10 →
      exec (.encRreg a b v) s = .next (tooLong s 10) ∧ exec (.frameRespReg a b v) s = .next (tooLong s 10)) ∧
    (s.inst.cfg.lmax.toNat < 12 →
      exec (.encRjob a b v w) s = .next (tooLong s 12) ∧ exec (.frameRespJob a b v w) s = .next (tooLong s 12))

/-- The wire rows with a CRC-5 send the frame of their header (R67 layouts). That the row's meaning is sending its frame is
the model's reading: log 7. -/
def Obligations.ControlFrameRowsSendTheirFrame : Prop :=
  ∀ (s : State) (addr reg v3 v2 v1 v0 : Byte), s.fault = none →
    exec (.frameSetaddr addr) s = .next (sent s (controlFrame s.inst.cfg [0x40, 0x05, addr, 0x00])) ∧
    exec (.frameWriteRegU addr reg (v3 ++ v2 ++ v1 ++ v0)) s
      = .next (sent s (controlFrame s.inst.cfg [0x41, 0x09, addr, reg, v3, v2, v1, v0])) ∧
    exec (.frameWriteRegB reg (v3 ++ v2 ++ v1 ++ v0)) s
      = .next (sent s (controlFrame s.inst.cfg [0x51, 0x09, 0x00, reg, v3, v2, v1, v0])) ∧
    exec (.frameReadRegU addr reg) s = .next (sent s (controlFrame s.inst.cfg [0x42, 0x05, addr, reg])) ∧
    exec (.frameReadRegB reg) s = .next (sent s (controlFrame s.inst.cfg [0x52, 0x05, 0x00, reg])) ∧
    exec .frameChainInactive s = .next (sent s (controlFrame s.inst.cfg [0x53, 0x05, 0x00, 0x00]))

/-- The wire rows with a CRC-16 send the frame of their header, and a job row beyond LMAX faults as ENC_JOB does (R67, R68
layouts, R123, R131; log 7). -/
def Obligations.LongFrameRowsSendTheirFrame : Prop :=
  ∀ (s : State) (a b v3 v2 v1 v0 r1 r0 : Byte) (work : Bytes), s.fault = none →
    (5 + work.length ≤ s.inst.cfg.lmax.toNat →
      exec (.frameJob a work) s = .next (sent s (longFrame s.inst.cfg s.inst.cfg.preCmd (jobBody a work)))) ∧
    (s.inst.cfg.lmax.toNat < 5 + work.length → exec (.frameJob a work) s = .next (tooLong s (5 + work.length))) ∧
    (10 ≤ s.inst.cfg.lmax.toNat →
      exec (.frameRespReg a b (v3 ++ v2 ++ v1 ++ v0)) s
        = .next (sent s (longFrame s.inst.cfg s.inst.cfg.preRsp [0x60, 0x0A, a, b, v3, v2, v1, v0]))) ∧
    (12 ≤ s.inst.cfg.lmax.toNat →
      exec (.frameRespJob a b (v3 ++ v2 ++ v1 ++ v0) (r1 ++ r0)) s
        = .next (sent s (longFrame s.inst.cfg s.inst.cfg.preRsp [0x80, 0x0C, a, b, v3, v2, v1, v0, r1, r0])))

/-- R120, R48, R204: an encoder operation that has a step leaves the decoder's state, the requests and the arguments alone;
what it returns decides the rest: it appended exactly the bytes it returned, or it appended nothing. R120 speaks of ops 0x10
to 0x17; that the nine wire rows are encoder operations too is the model's reading: log 7. -/
def Obligations.EncoderFrame : Prop :=
  ∀ (i : Instr) (s t : State), isEncoder i = true → exec i s = .next t →
    t.rx = s.rx ∧ t.mal = s.mal ∧ t.drop = s.drop ∧ t.cursor = s.cursor ∧ t.delivered = s.delivered ∧
    t.requests = s.requests ∧ t.inst = s.inst ∧
    ((∃ out, t.result = some (.bytes out) ∧ t.tx = s.tx ++ out ∧ t.fault = none) ∨
     (∃ op, t.result = some (.error (.unsupportedCapability op)) ∧ t.tx = s.tx ∧ t.fault = none) ∨
     (∃ n, t.result = some (.faulted (.payloadTooLong n)) ∧ t.tx = s.tx ∧ t.fault = some (.payloadTooLong n) ∧
       s.inst.cfg.lmax.toNat < n))

/-- R120 (b), R232, R237: what an encoder operation returns, and whether it has a step, depends only on its operands, `Cfg`
and `CAP`, not on the decoder's state, the TX stream, the direction or the open parameters. The rules speak of the ENC_*
operations, ops 0x10 to 0x17; that the nine wire rows are among them is the model's reading: log 7. -/
def Obligations.EncoderOutputDependsOnOperandsOnly : Prop :=
  ∀ (i : Instr) (s u t : State), isEncoder i = true → s.fault = u.fault → s.inst.cfg = u.inst.cfg →
    s.inst.cap = u.inst.cap → exec i s = .next t → ∃ v, exec i u = .next v ∧ v.result = t.result

/-- R138: among the non-pseudo commands, operations that send the same bytes are the same operation, but for the address
operand of a broadcast, which is not encoded; ENC_BAUD does what the register write it expands to does. -/
def Obligations.CommandEncodersAreInjective : Prop :=
  (∀ (c d : Command) (s t u : State) (out : Bytes),
    (instrOfCommand c).wellFormed = true → (instrOfCommand d).wellFormed = true →
    (∀ rate, c ≠ .setBaudRate rate) → (∀ rate, d ≠ .setBaudRate rate) →
    (∀ j w m, c ≠ .submitJob j w (some m)) → (∀ j w m, d ≠ .submitJob j w (some m)) →
    exec (instrOfCommand c) s = .next t → exec (instrOfCommand d) s = .next u →
    t.result = some (.bytes out) → u.result = some (.bytes out) → c = d) ∧
  (∀ (s : State) (a b reg : Byte) (value : BitVec 32),
    exec (.encRead .broadcast a reg) s = exec (.encRead .broadcast b reg) s ∧
    exec (.encWrite .broadcast a reg value) s = exec (.encWrite .broadcast b reg value) s) ∧
  (∀ (s : State) (rate : Nat) (w : RegWrite), baudWriteOf s.inst.cap rate = some w →
    exec (.encBaud rate) s = exec (.encWrite .broadcast 0 w.reg w.value) s)

/-! ## The decoder (42_decoder.md) -/

/-- R170: DEC_PUSH within the capacity appends its bytes to the buffer and does nothing else; beyond a finite capacity, and in
a faulted block, it has no step. -/
def Obligations.DecPushFollowsItsRule : Prop :=
  ∀ (s : State) (data : Bytes),
    (s.fault = none → (∀ n, s.inst.rxCapacity = some n → s.rx.length + data.length ≤ n) →
      exec (.decPush data) s = .next { s with rx := s.rx ++ data, result := some .done }) ∧
    (∀ n, s.fault = none → s.inst.rxCapacity = some n → n < s.rx.length + data.length →
      exec (.decPush data) s = .fault .pushOverCapacity) ∧
    (∀ f, s.fault = some f → exec (.decPush data) s = .fault .haltedBlock)

/-- R165: DEC_STEP answers NeedMore and changes nothing on an empty buffer, a lone first preamble byte, a preamble with fewer
than four bytes, and a candidate with an accepted header (and a large enough length) whose bytes are not all there; bytes
pushed then follow the ones it holds. -/
def Obligations.DecStepNeedsMore : Prop :=
  ∀ (s : State), s.fault = none →
    (s.rx = [] ∨ s.rx = [(rxPreamble s.inst).b0] ∨
     (∃ rest : Bytes, s.rx = (rxPreamble s.inst).b0 :: (rxPreamble s.inst).b1 :: rest ∧ rest.length < 2) ∨
     (∃ (t l : Byte) (rest : Bytes) (c : FrameClass),
       s.rx = (rxPreamble s.inst).b0 :: (rxPreamble s.inst).b1 :: t :: l :: rest ∧
       acceptedClass s.inst.dir t = some c ∧ minL c ≤ l.toNat ∧ s.rx.length < 2 + l.toNat)) →
    exec .decStep s = .next (answered s (.scan .needMore)) ∧
    (∀ data, (∀ n, s.inst.rxCapacity = some n → s.rx.length + data.length ≤ n) →
      exec (.decPush data) (answered s (.scan .needMore)) = .next { s with rx := s.rx ++ data, result := some .done })

/-- R162 (A): a byte that cannot begin the preamble, or a first preamble byte followed by another byte than the second, is
discarded and counted in `drop` (saturating, R26); `mal` stays. -/
def Obligations.DecStepDiscards : Prop :=
  ∀ (s : State) (b : Byte) (rest : Bytes), s.fault = none → s.rx = b :: rest →
    (b ≠ (rxPreamble s.inst).b0 ∨
      (b = (rxPreamble s.inst).b0 ∧ ∃ b1 more, rest = b1 :: more ∧ b1 ≠ (rxPreamble s.inst).b1)) →
    exec .decStep s = .next
      { s with rx := rest, drop := BitVec.ofNat 32 (min (s.drop.toNat + 1) (2 ^ 32 - 1)), cursor := s.cursor + 1,
               result := some (.scan .continued) }

/-- R164: a candidate with a header not accepted, a length byte below its class minimum, or all its bytes present and a
checksum that fails, loses exactly its first byte and is counted in `mal` and `drop` (saturating, R26). -/
def Obligations.DecStepRejects : Prop :=
  ∀ (s : State) (t l : Byte) (rest : Bytes), s.fault = none →
    s.rx = (rxPreamble s.inst).b0 :: (rxPreamble s.inst).b1 :: t :: l :: rest →
    (acceptedClass s.inst.dir t = none ∨
     (∃ c, acceptedClass s.inst.dir t = some c ∧
       (l.toNat < minL c ∨
        (2 + l.toNat ≤ s.rx.length ∧ valid s.inst.cfg c (s.rx.take (2 + l.toNat)) = false)))) →
    ∃ r, exec .decStep s = .next
      { s with rx := (rxPreamble s.inst).b1 :: t :: l :: rest,
               mal := BitVec.ofNat 32 (min (s.mal.toNat + 1) (2 ^ 32 - 1)),
               drop := BitVec.ofNat 32 (min (s.drop.toNat + 1) (2 ^ 32 - 1)), cursor := s.cursor + 1,
               result := some (.scan r) } ∧
      (r = .continued ∨ ∃ k, r = .alarm k ∧ s.inst.malThreshold = some k.toNat ∧ s.mal.toNat + 1 = k.toNat)

/-- R166: a candidate with an accepted header, a large enough length and a checksum that validates is delivered: its `2 + L`
bytes leave the buffer, `mal` is cleared, `drop` stays (the record of delivered frames: DeliveredFramesAreRecorded). -/
def Obligations.DecStepAccepts : Prop :=
  ∀ (s : State) (f rest : Bytes), s.fault = none → s.rx = f ++ rest → acceptedFrame s.inst f = true →
    ∃ d, exec .decStep s = .next
      { s with rx := rest, mal := 0, cursor := s.cursor + f.length, delivered := d, result := some (.scan (.frame f)) }

/-- R168: the rejection that raises `mal` from `k − 1` to `k = MAL_THRESHOLD` answers Alarm(k), its byte removed and counted as
ever; no other step answers an Alarm, and with no threshold none ever does. -/
def Obligations.AlarmExactlyAtThreshold : Prop :=
  ∀ (s t : State), exec .decStep s = .next t → ∀ k : BitVec 32,
    (t.result = some (.scan (.alarm k)) ↔
      s.inst.malThreshold = some k.toNat ∧ s.mal.toNat + 1 = k.toNat ∧ t.mal.toNat = k.toNat) ∧
    (t.result = some (.scan (.alarm k)) →
      t.rx = s.rx.drop 1 ∧ t.drop.toNat = min (s.drop.toNat + 1) (2 ^ 32 - 1) ∧ t.mal = k)

/-- R169: DEC_POLL is DEC_STEP repeated while it answers Continue, and answers as the step that ends the loop, a frame with
its parse; in a faulted block it has no step. -/
def Obligations.DecPollRepeatsDecStep : Prop :=
  ∀ (s : State),
    (s.fault = none → ∃ (t : State) (r : StepResult), exec .decStep s = .next t ∧ t.result = some (.scan r) ∧
      (match r with
       | .continued => exec .decPoll s = exec .decPoll t
       | .needMore => exec .decPoll s = .next (answered t (.event .needMore))
       | .alarm k => exec .decPoll s = .next (answered t (.event (.alarm k)))
       | .frame f => exec .decPoll s = .next (answered t (.event (.frame f (parse f)))))) ∧
    (∀ f, s.fault = some f → exec .decPoll s = .fault .haltedBlock)

/-- R176: a DEC_POLL is at most `|rx| + 1` DEC_STEPs, every one but the last answering Continue and removing exactly one byte,
and it answers as the last does. -/
def Obligations.DecPollTerminates : Prop :=
  ∀ (s : State), s.fault = none →
    ∃ (n : Nat) (t u : State) (r : StepResult), n ≤ s.rx.length ∧ continueSteps n s = some t ∧ t.rx = s.rx.drop n ∧
      exec .decStep t = .next u ∧ u.result = some (.scan r) ∧ r ≠ .continued ∧
      exec .decPoll s = .next (answered u (.event (eventOfStep r)))

/-- R172: after a NeedMore a second DEC_POLL answers NeedMore again and changes nothing. -/
def Obligations.NeedMoreIsStable : Prop :=
  ∀ (s t : State), exec .decPoll s = .next t → t.result = some (.event .needMore) → exec .decPoll t = .next t

/-- R167, R166, R74: every frame DEC_POLL delivers is a piece of the buffer with the preamble of the decoder's direction, a
header it accepts (so never a reserved TYPE) and a checksum that validates; it comes with its parse. -/
def Obligations.OnlyValidFramesAreDelivered : Prop :=
  ∀ (s t : State) (f : Bytes) (v : Parsed), exec .decPoll s = .next t → t.result = some (.event (.frame f v)) →
    v = parse f ∧ (∃ before, s.rx = before ++ f ++ t.rx) ∧ t.mal = 0 ∧
    ∃ c, acceptedClass s.inst.dir (byteAt f 2) = some c ∧ minL c ≤ lengthOf f ∧ f.length = 2 + lengthOf f ∧
      f.take 2 = [(rxPreamble s.inst).b0, (rxPreamble s.inst).b1] ∧ valid s.inst.cfg c f = true

/-- R91, R239: which frames DEC_STEP and DEC_POLL have delivered. None at creation; an operation that returns a frame adds it
to them, and no other operation changes them. That the block keeps this record, across DEC_RESET too, is the model's: log 9. -/
def Obligations.DeliveredFramesAreRecorded : Prop :=
  (∀ i : Instance, (State.create i).delivered = []) ∧
  ∀ (i : Instr) (s t : State), exec i s = .next t →
    (∀ f, (t.result = some (.scan (.frame f)) ∨ ∃ v, t.result = some (.event (.frame f v))) →
      (i = .decStep ∨ i = .decPoll) ∧ t.delivered = s.delivered ++ [f]) ∧
    ((∀ f, t.result ≠ some (.scan (.frame f)) ∧ ∀ v, t.result ≠ some (.event (.frame f v))) → t.delivered = s.delivered)

/-- R171, R91: DEC_PARSE of a frame DEC_STEP or DEC_POLL delivered returns the parse of its bytes and changes nothing (how the
delivered frames are known: log 9). -/
def Obligations.DecParseReturnsTheParse : Prop :=
  ∀ (s : State) (f : Bytes), s.fault = none → f ∈ s.delivered →
    exec (.decParse f) s = .next (answered s (.parsed (parse f)))

/-- R91, R239: DEC_PARSE of bytes that DEC_STEP and DEC_POLL never delivered, a valid frame the caller assembled itself among
them, is not an operation (how the delivered frames are known: log 9). -/
def Obligations.DecParseOfOtherBytesIsRefused : Prop :=
  ∀ (s : State) (f : Bytes), s.fault = none → f ∉ s.delivered →
    exec (.decParse f) s = .refused .parseOfUndeliveredBytes

/-- R171, the arms of the control frames, every one with its reserved bytes (R75). -/
def Obligations.ParseOfControlFrames : Prop :=
  ∀ (a b p0 p1 p2 p3 p4 p5 c : Byte),
    parse [a, b, 0x40, 5, p0, p1, c] = (if p1 = 0 then .cmd (.setChipAddress p0) else .unrecognized) ∧
    parse [a, b, 0x53, 5, p0, p1, c] = (if p0 = 0 ∧ p1 = 0 then .cmd .chainInactive else .unrecognized) ∧
    parse [a, b, 0x42, 5, p0, p1, c] = .cmd (.readRegister .unicast p0 p1) ∧
    parse [a, b, 0x52, 5, p0, p1, c] = (if p0 = 0 then .cmd (.readRegister .broadcast 0 p1) else .unrecognized) ∧
    parse [a, b, 0x41, 9, p0, p1, p2, p3, p4, p5, c]
      = .cmd (.writeRegister .unicast p0 p1 (p2 ++ p3 ++ p4 ++ p5)) ∧
    parse [a, b, 0x51, 9, p0, p1, p2, p3, p4, p5, c]
      = (if p0 = 0 then .cmd (.writeRegister .broadcast 0 p1 (p2 ++ p3 ++ p4 ++ p5)) else .unrecognized)

/-- R171, the arms of the long frames. -/
def Obligations.ParseOfLongFrames : Prop :=
  ∀ (a b j p0 p1 p2 p3 p4 p5 p6 p7 c0 c1 : Byte) (work : Bytes), 5 + work.length ≤ 255 →
    parse ([a, b, 0x21, BitVec.ofNat 8 (5 + work.length), j] ++ work ++ [c0, c1]) = .cmd (.submitJob j work none) ∧
    parse [a, b, 0x60, 10, p0, p1, p2, p3, p4, p5, c0, c1] = .rsp (.regResponse p0 p1 (p2 ++ p3 ++ p4 ++ p5)) ∧
    parse [a, b, 0x80, 12, p0, p1, p2, p3, p4, p5, p6, p7, c0, c1]
      = .rsp (.jobResult p0 p1 (p2 ++ p3 ++ p4 ++ p5) (p6 ++ p7))

/-- R171, R180: a frame whose header and length no arm of the parse names is Unrecognized. -/
def Obligations.ParseOfUnnamedFramesIsUnrecognized : Prop :=
  ∀ (f : Bytes),
    ¬ (byteAt f 2 ∈ ([0x40, 0x53, 0x42, 0x52] : Bytes) ∧ lengthOf f = 5) →
    ¬ (byteAt f 2 ∈ ([0x41, 0x51] : Bytes) ∧ lengthOf f = 9) →
    ¬ (byteAt f 2 = 0x21 ∧ 5 ≤ lengthOf f) → ¬ (byteAt f 2 = 0x60 ∧ lengthOf f = 10) →
    ¬ (byteAt f 2 = 0x80 ∧ lengthOf f = 12) → parse f = .unrecognized

/-- R65, R73: the class of each header byte in each direction. -/
def Obligations.HeaderMapOfEveryByte : Prop :=
  ∀ t : Byte,
    acceptedClass .chip t = (if 0x40 ≤ t ∧ t ≤ 0x5F then some .c5 else if 0x20 ≤ t ∧ t ≤ 0x3F then some .c16 else none) ∧
    acceptedClass .host t = (if 0x60 ≤ t ∧ t ≤ 0x9F then some .c16 else none)

/-- R174, R231: DEC_RESET clears the buffer and both counters, and leaves the TX stream and `fault`; in a faulted block it has
no step. That it sets the scan cursor of R21 back to 0 is the model's deduction (log 13), and that the frames delivered before
it stay delivered is the model's choice (log 9). -/
def Obligations.DecResetClearsTheDecoder : Prop :=
  ∀ (s : State),
    (s.fault = none →
      exec .decReset s = .next { s with rx := [], mal := 0, drop := 0, cursor := 0, result := some .done }) ∧
    (∀ f, s.fault = some f → exec .decReset s = .fault .haltedBlock)

/-- R175: DEC_STATUS returns `(|rx|, mal, drop, fault)` in every state, faulted or not, and changes nothing. -/
def Obligations.DecStatusReadsInEveryState : Prop :=
  ∀ (s : State), exec .decStatus s = .next (answered s (.status s.rx.length s.mal s.drop s.fault))

/-! ## The whole machine -/

/-- R29: in a faulted block no operation but DEC_STATUS has a step, and DEC_STATUS only reads. -/
def Obligations.FaultedBlockRunsOnlyDecStatus : Prop :=
  ∀ (s : State) (f : FaultCode), s.fault = some f →
    (∀ i : Instr, i ≠ .decStatus → exec i s = .fault .haltedBlock) ∧
    exec .decStatus s = .next (answered s (.status s.rx.length s.mal s.drop (some f)))

/-- R29, R217, D25: a faulted state is never a final state of a run, and refutes every observation. Without a request it is
stuck; whatever steps a run takes from it, the fault stays and the run does not end. What a final state and an observation are
is the model's form of it: log 10. -/
def Obligations.FaultedStateIsNeverFinal : Prop :=
  ∀ (s : State) (f : FaultCode), s.fault = some f →
    (s.requests = [] → step s = .fault .haltedBlock) ∧
    (∀ (n : Nat) (t : State), Sys2Proof.core.run n s = .next t → t.fault = some f ∧ ¬ Final t) ∧
    ∀ P : State → Prop, ¬ Observation P s

/-- R233: no operation clears `fault`, whatever it is; and R205: only a long frame's encoder sets it. -/
def Obligations.FaultIsStickyAndOnlyEncodersSetIt : Prop :=
  ∀ (i : Instr) (s t : State), exec i s = .next t →
    (∀ f, s.fault = some f → t.fault = some f) ∧
    (∀ f, s.fault = none → t.fault = some f →
      ((∃ j w m, i = .encJob j w m) ∨ (∃ a g v, i = .encRreg a g v) ∨ (∃ j a n v, i = .encRjob j a n v) ∨
       (∃ j w, i = .frameJob j w) ∨ (∃ a g v, i = .frameRespReg a g v) ∨ (∃ j a n v, i = .frameRespJob j a n v)))

/-- R203, R204: an operation that returns an error has had no other effect, and it is ENC_BAUD or ENC_JOB. -/
def Obligations.ErrorsLeaveNoEffect : Prop :=
  ∀ (i : Instr) (s t : State) (e : ErrorCode), exec i s = .next t → t.result = some (.error e) →
    t = { s with result := some (.error e) } ∧
    ((e = .unsupportedCapability 0x14 ∧ ∃ rate, i = .encBaud rate) ∨
     (e = .unsupportedCapability 0x15 ∧ s.inst.cap.vrSupported = false ∧ ∃ j w m, i = .encJob j w (some m)))

/-- R28, R237, R21: no operation changes the instance's arguments; the CRC and decoder operations leave the TX stream; only
DEC_PUSH makes the buffer longer; only DEC_RESET moves the cursor back. -/
def Obligations.WhatEachUnitLeavesAlone : Prop :=
  ∀ (i : Instr) (s t : State), exec i s = .next t →
    t.inst = s.inst ∧ t.requests = s.requests ∧
    (isEncoder i = false → t.tx = s.tx ∧ t.fault = s.fault) ∧
    ((∀ data, i ≠ .decPush data) → t.rx.length ≤ s.rx.length) ∧
    (i ≠ .decReset → s.cursor ≤ t.cursor) ∧
    ((∃ data, i = .crc5 data ∨ i = .crc16 data ∨ i = .decParse data) ∨ i = .decStatus →
      ∃ r, t = { s with result := some r })

/-- R51: a request that decodes to an operation is taken and that operation is run; nothing else happens. -/
def Obligations.StepRunsTheFirstRequest : Prop :=
  ∀ (s : State) (r : Request) (rest : List Request) (i : Instr), s.requests = r :: rest →
    decode r.space r.bytes = .ok i → step s = exec i { s with requests := rest }

/-- R216: with no request pending a step of a live block changes nothing; a request that is no operation (R91) is refused by
name, in a faulted block too. That the machine idles so is the model's: log 14 (a faulted block without a request:
FaultedStateIsNeverFinal). -/
def Obligations.StepIdlesOrRefusesByName : Prop :=
  (∀ s : State, s.fault = none → s.requests = [] → step s = .next s) ∧
  (∀ (s : State) (r : Request) (rest : List Request) (e : DecodeError), s.requests = r :: rest →
    decode r.space r.bytes = .error e → step s = .refused (.undecodable e))

/-- R230, R231: the state at instance creation. -/
def Obligations.CreationState : Prop :=
  ∀ (i : Instance), (State.create i).rx = [] ∧ (State.create i).mal = 0 ∧ (State.create i).drop = 0 ∧
    (State.create i).fault = none ∧ (State.create i).cursor = 0 ∧ (State.create i).tx = [] ∧ (State.create i).inst = i

/-- The invariant holds at instance creation, so at reset. That nothing has been returned yet is the model's: log 8. -/
def Obligations.InvariantHoldsAtCreation : Prop := ∀ (i : Instance), Inv (State.create i)

/-- R20, R21, R26, R29, R166, R205: every step of the machine, from any state that has the invariant, keeps it. -/
def Obligations.StepKeepsInvariant : Prop :=
  ∀ (s t : State), Inv s → step s = .next t → Inv t

/-! ## Encodings -/

/-- Decoding what `encode` writes gives the instruction back, for every well-formed instruction of the table. -/
def Obligations.DecodeAfterEncode : Prop :=
  ∀ (i : Instr), i.wellFormed = true → decode (spaceOf i) (encode i) = .ok i

/-- What decodes is well formed, and has no other bytes than its encoding. -/
def Obligations.EncodeAfterDecode : Prop :=
  ∀ (space : Space) (bytes : Bytes) (i : Instr), decode space bytes = .ok i →
    i.wellFormed = true ∧ spaceOf i = space ∧ encode i = bytes

/-- A few requests written out: the code byte is the table's "match" byte, the operands follow (layout: log 5). -/
def Obligations.DecodeOfWrittenWords : Prop :=
  decode .interface [0x10, 0x04] = .ok (.encSetaddr 0x04) ∧
  decode .interface [0x13, 0x01, 0xA4, 0x90, 0x00, 0xFF, 0xFF] = .ok (.encWrite .broadcast 0 0xA4 0x9000FFFF) ∧
  decode .interface [0x21] = .ok .decStep ∧
  decode .wire [0x21, 0x02, 0x18, 0xAB, 0xCD] = .ok (.frameJob 0x18 [0xAB, 0xCD]) ∧
  decode .wire [0x53, 0x00, 0x00] = .ok .frameChainInactive ∧
  decode .wire [0x43, 0x00, 0x00] = .error (.unknownCode .wire 0x43)

/-! ## The laws of the decoder -/

/-- R177: what an instance sends for a command, pushed into a CHIP decoder of the same `Cfg` with an empty buffer and polled
until NeedMore, comes back as exactly the commands it was sent as (R93), frame by frame, with no Alarm; the buffer is empty,
`drop` unchanged, `mal` 0. The same for a response and a HOST decoder. -/
def Obligations.RoundTrip : Prop :=
  (∀ (c : Command) (e e' d : State) (out : Bytes) (expected : List Command),
    exec (instrOfCommand c) e = .next e' → e'.result = some (.bytes out) → sentAs e.inst.cap c = some expected →
    d.fault = none → d.inst.dir = .chip → d.inst.cfg = e.inst.cfg → d.rx = [] →
    (∀ n, d.inst.rxCapacity = some n → out.length ≤ n) →
    (pushAndPoll out d).2.map eventParsed = expected.map (fun x => some (.cmd x)) ∧
    (pushAndPoll out d).2.flatMap eventBytes = out ∧
    (pushAndPoll out d).1.rx = [] ∧ (pushAndPoll out d).1.drop = d.drop ∧ (pushAndPoll out d).1.mal = 0 ∧
    (pushAndPoll out d).1.result = some (.event .needMore)) ∧
  (∀ (r : Response) (e e' d : State) (out : Bytes),
    exec (instrOfResponse r) e = .next e' → e'.result = some (.bytes out) →
    d.fault = none → d.inst.dir = .host → d.inst.cfg = e.inst.cfg → d.rx = [] →
    (∀ n, d.inst.rxCapacity = some n → out.length ≤ n) →
    (pushAndPoll out d).2 = [.frame out (.rsp r)] ∧
    (pushAndPoll out d).1.rx = [] ∧ (pushAndPoll out d).1.drop = d.drop ∧ (pushAndPoll out d).1.mal = 0 ∧
    (pushAndPoll out d).1.result = some (.event .needMore))

/-- R178: after any bytes `X` without a live candidate, a frame `F` of the decoder's direction is the one Frame event, possibly
preceded by one Alarm, of a decoder in its reset state; the buffer ends empty and `drop` has grown by `|X|` (saturating, R26). -/
def Obligations.Resynchronisation : Prop :=
  ∀ (d : State) (x f : Bytes), d.fault = none → d.rx = [] → d.mal = 0 → d.drop = 0 →
    (∀ n, d.inst.rxCapacity = some n → (x ++ f).length ≤ n) → acceptedFrame d.inst f = true →
    (∀ i, i < x.length → ¬ LiveCandidate d.inst (x ++ f) i) →
    ((pushAndPoll (x ++ f) d).2 = [.frame f (parse f)] ∨
      ∃ k, (pushAndPoll (x ++ f) d).2 = [.alarm k, .frame f (parse f)]) ∧
    (pushAndPoll (x ++ f) d).1.rx = [] ∧ (pushAndPoll (x ++ f) d).1.drop.toNat = min x.length (2 ^ 32 - 1)

/-- R179: a candidate at the front of the buffer is decided as soon as `|rx| ≥ 2 + L`, and no buffer of 257 bytes waits; a
step that does not deliver a frame moves the cursor by at most one byte, so none is stepped over. -/
def Obligations.CandidateIsDecidedInBoundedBytes : Prop :=
  ∀ (s : State), s.fault = none →
    (257 ≤ s.rx.length ∨ (4 ≤ s.rx.length ∧ 2 + lengthOf s.rx ≤ s.rx.length) →
      ∃ t, exec .decStep s = .next t ∧ t.result ≠ some (.scan .needMore)) ∧
    (∀ t, exec .decStep s = .next t → (∀ f, t.result ≠ some (.scan (.frame f))) →
      (t.rx = s.rx ∧ t.cursor = s.cursor) ∨ (t.rx = s.rx.drop 1 ∧ t.cursor = s.cursor + 1))

/-- R182: however a byte stream is split into pushes, with polling until NeedMore after each, the Frame and Alarm events and
the final state are the same: any two splits of one stream agree, if every push of both fits the buffer at its time (R181).
Where the whole stream fits as one push, every push of every split does. -/
def Obligations.ChunkingInvariance : Prop :=
  ∀ (s : State), s.fault = none →
    (∀ split other : List Bytes, split ≠ [] → other ≠ [] → split.flatten = other.flatten →
      feedFits split s = true → feedFits other s = true →
      (feed split s).2 = (feed other s).2 ∧ (feed split s).1 = (feed other s).1) ∧
    (∀ split : List Bytes, (∀ n, s.inst.rxCapacity = some n → s.rx.length + split.flatten.length ≤ n) →
      feedFits split s = true)

/-- R53: DEC_POLLs take bytes in the order they were pushed: the delivered frames are disjoint pieces of the buffer, in order,
each behind the bytes discarded before it and the last before what the buffer still holds. -/
def Obligations.FramesComeInOrder : Prop :=
  ∀ (s : State) (fuel : Nat), s.fault = none →
    ∃ (gaps : List Bytes) (last : Bytes),
      gaps.length = ((pollUntilNeedMore fuel s).2.filterMap eventFrame).length ∧
      s.rx = (List.zipWith (· ++ ·) gaps ((pollUntilNeedMore fuel s).2.filterMap eventFrame)).flatten
        ++ last ++ (pollUntilNeedMore fuel s).1.rx
end

