-- ==== Sys2Proof/Laws/Decode.lean ====
section
/-! SUPPORT. Each operand's reader reads what its writer writes, and reads nothing else. -/

namespace Sys2Proof

open Sys2Proof.Machine (be16 be32 u16be u32be)

@[simp] theorem andThen_ok {α β : Type} (a : α) (rest : Bytes) (next : α → Bytes → Reader β) :
    andThen (.ok (a, rest)) next = next a rest := rfl

/-- What reading in sequence can do. -/
theorem andThen_eq_ok {α β : Type} {first : Reader α} {next : α → Bytes → Reader β} {r : β × Bytes} :
    andThen first next = .ok r ↔ ∃ a rest, first = .ok (a, rest) ∧ next a rest = .ok r := by
  cases first with
  | error e => simp [andThen]
  | ok p =>
    obtain ⟨a, rest⟩ := p
    simp [andThen]

/-! ### Byte order -/

theorem u16be_be16 (v : BitVec 16) : u16be (v.extractLsb' 8 8) (v.extractLsb' 0 8) = v := by
  apply BitVec.eq_of_getLsbD_eq
  intro i hi
  interval_cases i <;> simp [u16be]

theorem be16_u16be (b0 b1 : Byte) : be16 (u16be b0 b1) = [b0, b1] := by
  simp only [be16, u16be, List.cons.injEq, and_true]
  refine ⟨?_, ?_⟩ <;> apply BitVec.eq_of_getLsbD_eq <;> intro i hi <;> interval_cases i <;> simp

theorem u32be_be32 (v : BitVec 32) :
    u32be (v.extractLsb' 24 8) (v.extractLsb' 16 8) (v.extractLsb' 8 8) (v.extractLsb' 0 8) = v := by
  apply BitVec.eq_of_getLsbD_eq
  intro i hi
  interval_cases i <;> simp [u32be]

theorem be32_u32be (b0 b1 b2 b3 : Byte) : be32 (u32be b0 b1 b2 b3) = [b0, b1, b2, b3] := by
  simp only [be32, u32be, List.cons.injEq, and_true]
  refine ⟨?_, ?_, ?_, ?_⟩ <;> apply BitVec.eq_of_getLsbD_eq <;> intro i hi <;> interval_cases i <;> simp

/-- `u16be` is concatenation, the high byte first. -/
theorem u16be_append (b0 b1 : Byte) : u16be b0 b1 = b0 ++ b1 := by
  apply BitVec.eq_of_getLsbD_eq
  intro i hi
  change _ = BitVec.getLsbD (w := 8 + 8) (b0 ++ b1) i
  simp only [BitVec.getLsbD_append]
  interval_cases i <;> simp [u16be]

/-- `u32be` is concatenation, the high byte first. -/
theorem u32be_append (b0 b1 b2 b3 : Byte) : u32be b0 b1 b2 b3 = b0 ++ b1 ++ b2 ++ b3 := by
  apply BitVec.eq_of_getLsbD_eq
  intro i hi
  change _ = BitVec.getLsbD (w := 8 + 8 + 8 + 8) (b0 ++ b1 ++ b2 ++ b3) i
  simp only [BitVec.getLsbD_append]
  interval_cases i <;> simp [u32be]

/-- `be16` of two concatenated bytes. -/
theorem be16_append (b0 b1 : Byte) : be16 (b0 ++ b1) = [b0, b1] := by rw [← u16be_append, be16_u16be]

/-- `be32` of four concatenated bytes. -/
theorem be32_append (b0 b1 b2 b3 : Byte) : be32 (b0 ++ b1 ++ b2 ++ b3) = [b0, b1, b2, b3] := by
  rw [← u32be_append, be32_u32be]

@[simp] theorem be16_length (v : BitVec 16) : (be16 v).length = 2 := rfl
@[simp] theorem be32_length (v : BitVec 32) : (be32 v).length = 4 := rfl

/-! ### What a writer writes is read back -/

@[simp] theorem readU16_be16 (v : BitVec 16) (rest : Bytes) : readU16 (be16 v ++ rest) = .ok (v, rest) := by
  simp [be16, readU16, u16be_be16]

@[simp] theorem readU32_be32 (v : BitVec 32) (rest : Bytes) : readU32 (be32 v ++ rest) = .ok (v, rest) := by
  simp [be32, readU32, u32be_be32]

theorem readNat_writeNatDigits (fuel n : Nat) (h : n ≤ fuel) (rest : Bytes) :
    readNat (writeNatDigits fuel n ++ rest) = .ok (n, rest) := by
  induction fuel generalizing n with
  | zero =>
    obtain rfl : n = 0 := by omega
    simp [writeNatDigits, readNat]
  | succ fuel ih =>
    by_cases hn : n < 128
    · simp [writeNatDigits, hn, readNat, Nat.mod_eq_of_lt (show n < 256 by omega)]
    · have hdigit : (BitVec.ofNat 8 (128 + n % 128)).toNat = 128 + n % 128 := by
        simp only [BitVec.toNat_ofNat]
        omega
      simp only [writeNatDigits, if_neg hn, List.cons_append, readNat, hdigit, ih (n / 128) (by omega)]
      rw [if_neg (by omega), if_neg (by omega)]
      simp only [Except.ok.injEq, Prod.mk.injEq, and_true]
      omega

@[simp] theorem readNat_writeNat (n : Nat) (rest : Bytes) : readNat (writeNat n ++ rest) = .ok (n, rest) :=
  readNat_writeNatDigits n n (le_refl n) rest

@[simp] theorem readBytes_writeBytes (data rest : Bytes) : readBytes (writeBytes data ++ rest) = .ok (data, rest) := by
  simp [readBytes, writeBytes, List.append_assoc]

@[simp] theorem readMask_writeMask (m : Option (BitVec 32)) (rest : Bytes) :
    readMask (writeMask m ++ rest) = .ok (m, rest) := by
  cases m <;> simp [readMask, writeMask]

/-! ### What is read was written -/

theorem readByte_eq_ok {bs rest : Bytes} {b : Byte} : readByte bs = .ok (b, rest) ↔ bs = b :: rest := by
  cases bs <;> simp [readByte]

theorem readU16_eq_ok {bs rest : Bytes} {v : BitVec 16} : readU16 bs = .ok (v, rest) ↔ bs = be16 v ++ rest := by
  constructor
  · intro h
    match bs, h with
    | b0 :: b1 :: r, h =>
      simp only [readU16, Except.ok.injEq, Prod.mk.injEq] at h
      obtain ⟨rfl, rfl⟩ := h
      simp [be16_u16be]
    | [], h => simp [readU16] at h
    | [_], h => simp [readU16] at h
  · rintro rfl
    simp

theorem readU32_eq_ok {bs rest : Bytes} {v : BitVec 32} : readU32 bs = .ok (v, rest) ↔ bs = be32 v ++ rest := by
  constructor
  · intro h
    match bs, h with
    | b0 :: b1 :: b2 :: b3 :: r, h =>
      simp only [readU32, Except.ok.injEq, Prod.mk.injEq] at h
      obtain ⟨rfl, rfl⟩ := h
      simp [be32_u32be]
    | [], h => simp [readU32] at h
    | [_], h => simp [readU32] at h
    | [_, _], h => simp [readU32] at h
    | [_, _, _], h => simp [readU32] at h
  · rintro rfl
    simp

/-- More fuel than the number itself writes the same digits. -/
theorem writeNatDigits_fuel (fuel n : Nat) (h : n ≤ fuel) : writeNatDigits fuel n = writeNat n := by
  suffices ∀ fuel' n, n ≤ fuel' → ∀ fuel, n ≤ fuel → writeNatDigits fuel n = writeNatDigits fuel' n from
    this n n (le_refl n) fuel h
  intro fuel' 
  induction fuel' with
  | zero =>
    intro n hn fuel hf
    obtain rfl : n = 0 := by omega
    cases fuel <;> simp [writeNatDigits]
  | succ fuel' ih =>
    intro n hn fuel hf
    cases fuel with
    | zero =>
      obtain rfl : n = 0 := by omega
      simp [writeNatDigits]
    | succ fuel =>
      simp only [writeNatDigits]
      split
      · rfl
      · rw [ih (n / 128) (by omega) fuel (by omega)]

theorem readNat_eq_ok {bs rest : Bytes} {n : Nat} : readNat bs = .ok (n, rest) ↔ bs = writeNat n ++ rest := by
  constructor
  · induction bs generalizing n with
    | nil => simp [readNat]
    | cons b bs ih =>
      intro h
      have hb := b.isLt
      simp only [readNat] at h
      split at h
      · simp only [Except.ok.injEq, Prod.mk.injEq] at h
        obtain ⟨rfl, rfl⟩ := h
        rw [← writeNatDigits_fuel (b.toNat + 1) b.toNat (by omega)]
        simp [writeNatDigits, *]
      · split at h
        · simp at h
        · rename_i high rest' hread
          split at h
          · simp at h
          · simp only [Except.ok.injEq, Prod.mk.injEq] at h
            obtain ⟨rfl, rfl⟩ := h
            rw [ih hread, ← writeNatDigits_fuel (b.toNat - 128 + 128 * high + 1)
              (b.toNat - 128 + 128 * high) (by omega)]
           
            rw [writeNatDigits, if_neg (by omega), show (b.toNat - 128 + 128 * high) / 128 = high by omega,
              writeNatDigits_fuel _ high (by omega),
              show 128 + (b.toNat - 128 + 128 * high) % 128 = b.toNat by omega]
            simp
  · rintro rfl
    simp

theorem readBytes_eq_ok {bs rest data : Bytes} : readBytes bs = .ok (data, rest) ↔ bs = writeBytes data ++ rest := by
  constructor
  · intro h
    simp only [readBytes] at h
    split at h
    · simp at h
    · rename_i n r hread
      split at h
      · simp at h
      · simp only [Except.ok.injEq, Prod.mk.injEq] at h
        obtain ⟨rfl, rfl⟩ := h
        rw [readNat_eq_ok.1 hread]
        simp only [writeBytes, List.append_assoc, List.take_append_drop]
        congr 2
        simp only [List.length_take]
        omega
  · rintro rfl
    simp

theorem readMask_eq_ok {bs rest : Bytes} {m : Option (BitVec 32)} :
    readMask bs = .ok (m, rest) ↔ bs = writeMask m ++ rest := by
  constructor
  · intro h
    cases bs with
    | nil => simp [readMask] at h
    | cons b r =>
      simp only [readMask] at h
      split at h
      · simp only [Except.ok.injEq, Prod.mk.injEq] at h
        obtain ⟨rfl, rfl⟩ := h
        simp [writeMask, *]
      · split at h
        · split at h
          · simp at h
          · rename_i hread
            simp only [Except.ok.injEq, Prod.mk.injEq] at h
            obtain ⟨rfl, rfl⟩ := h
            simp_all [writeMask, readU32_eq_ok]
        · simp at h
  · rintro rfl
    simp

theorem readZero_eq_ok {bs rest : Bytes} {u : Unit} : readZero bs = .ok (u, rest) ↔ bs = 0 :: rest := by
  cases bs with
  | nil => simp [readZero]
  | cons b r =>
    simp only [readZero]
    split <;> simp_all

/-- The code byte of a row selects it in its encoding. -/
theorem rowOfCode_codeOfRow (row : Row) : rowOfCode (codeOfRow row).1 (codeOfRow row).2 = some row := by
  cases row <;> decide

/-- No two rows share an encoding and a code byte. -/
theorem opcodeTable_pairwise_distinct : opcodeTable.Pairwise (fun a b => a.2 ≠ b.2) := by decide

/-- Every row stands in the table. -/
theorem opcodeTable_complete (row : Row) : row ∈ opcodeTable.map (·.1) := by cases row <;> decide

end Sys2Proof
end

