-- ==== Sys2Proof/Laws/State.lean ====
section
/-! SUPPORT. One lemma per field per update of the state, each true by rfl. -/

namespace Sys2Proof.Machine

@[simp] theorem returning_rx (s : State) (r : OpResult) : (returning s r).rx = s.rx := rfl
@[simp] theorem returning_mal (s : State) (r : OpResult) : (returning s r).mal = s.mal := rfl
@[simp] theorem returning_drop (s : State) (r : OpResult) : (returning s r).drop = s.drop := rfl
@[simp] theorem returning_fault (s : State) (r : OpResult) : (returning s r).fault = s.fault := rfl
@[simp] theorem returning_cursor (s : State) (r : OpResult) : (returning s r).cursor = s.cursor := rfl
@[simp] theorem returning_tx (s : State) (r : OpResult) : (returning s r).tx = s.tx := rfl
@[simp] theorem returning_delivered (s : State) (r : OpResult) : (returning s r).delivered = s.delivered := rfl
@[simp] theorem returning_result (s : State) (r : OpResult) : (returning s r).result = some r := rfl
@[simp] theorem returning_requests (s : State) (r : OpResult) : (returning s r).requests = s.requests := rfl
@[simp] theorem returning_inst (s : State) (r : OpResult) : (returning s r).inst = s.inst := rfl

@[simp] theorem raiseError_rx (s : State) (e : ErrorCode) : (raiseError s e).rx = s.rx := rfl
@[simp] theorem raiseError_mal (s : State) (e : ErrorCode) : (raiseError s e).mal = s.mal := rfl
@[simp] theorem raiseError_drop (s : State) (e : ErrorCode) : (raiseError s e).drop = s.drop := rfl
@[simp] theorem raiseError_fault (s : State) (e : ErrorCode) : (raiseError s e).fault = s.fault := rfl
@[simp] theorem raiseError_cursor (s : State) (e : ErrorCode) : (raiseError s e).cursor = s.cursor := rfl
@[simp] theorem raiseError_tx (s : State) (e : ErrorCode) : (raiseError s e).tx = s.tx := rfl
@[simp] theorem raiseError_delivered (s : State) (e : ErrorCode) : (raiseError s e).delivered = s.delivered := rfl
@[simp] theorem raiseError_result (s : State) (e : ErrorCode) : (raiseError s e).result = some (.error e) := rfl
@[simp] theorem raiseError_requests (s : State) (e : ErrorCode) : (raiseError s e).requests = s.requests := rfl
@[simp] theorem raiseError_inst (s : State) (e : ErrorCode) : (raiseError s e).inst = s.inst := rfl

@[simp] theorem takeFault_rx (s : State) (f : FaultCode) : (takeFault s f).rx = s.rx := rfl
@[simp] theorem takeFault_mal (s : State) (f : FaultCode) : (takeFault s f).mal = s.mal := rfl
@[simp] theorem takeFault_drop (s : State) (f : FaultCode) : (takeFault s f).drop = s.drop := rfl
@[simp] theorem takeFault_fault (s : State) (f : FaultCode) : (takeFault s f).fault = some f := rfl
@[simp] theorem takeFault_cursor (s : State) (f : FaultCode) : (takeFault s f).cursor = s.cursor := rfl
@[simp] theorem takeFault_tx (s : State) (f : FaultCode) : (takeFault s f).tx = s.tx := rfl
@[simp] theorem takeFault_delivered (s : State) (f : FaultCode) : (takeFault s f).delivered = s.delivered := rfl
@[simp] theorem takeFault_result (s : State) (f : FaultCode) : (takeFault s f).result = some (.faulted f) := rfl
@[simp] theorem takeFault_requests (s : State) (f : FaultCode) : (takeFault s f).requests = s.requests := rfl
@[simp] theorem takeFault_inst (s : State) (f : FaultCode) : (takeFault s f).inst = s.inst := rfl

@[simp] theorem emit_rx (s : State) (out : Bytes) : (emit s out).rx = s.rx := rfl
@[simp] theorem emit_mal (s : State) (out : Bytes) : (emit s out).mal = s.mal := rfl
@[simp] theorem emit_drop (s : State) (out : Bytes) : (emit s out).drop = s.drop := rfl
@[simp] theorem emit_fault (s : State) (out : Bytes) : (emit s out).fault = s.fault := rfl
@[simp] theorem emit_cursor (s : State) (out : Bytes) : (emit s out).cursor = s.cursor := rfl
@[simp] theorem emit_tx (s : State) (out : Bytes) : (emit s out).tx = s.tx ++ out := rfl
@[simp] theorem emit_delivered (s : State) (out : Bytes) : (emit s out).delivered = s.delivered := rfl
@[simp] theorem emit_result (s : State) (out : Bytes) : (emit s out).result = some (.bytes out) := rfl
@[simp] theorem emit_requests (s : State) (out : Bytes) : (emit s out).requests = s.requests := rfl
@[simp] theorem emit_inst (s : State) (out : Bytes) : (emit s out).inst = s.inst := rfl

@[simp] theorem discard1_rx (s : State) : (discard1 s).rx = s.rx.drop 1 := rfl
@[simp] theorem discard1_mal (s : State) : (discard1 s).mal = s.mal := rfl
@[simp] theorem discard1_drop (s : State) : (discard1 s).drop = satInc s.drop := rfl
@[simp] theorem discard1_fault (s : State) : (discard1 s).fault = s.fault := rfl
@[simp] theorem discard1_cursor (s : State) : (discard1 s).cursor = s.cursor + 1 := rfl
@[simp] theorem discard1_tx (s : State) : (discard1 s).tx = s.tx := rfl
@[simp] theorem discard1_delivered (s : State) : (discard1 s).delivered = s.delivered := rfl
@[simp] theorem discard1_result (s : State) : (discard1 s).result = s.result := rfl
@[simp] theorem discard1_requests (s : State) : (discard1 s).requests = s.requests := rfl
@[simp] theorem discard1_inst (s : State) : (discard1 s).inst = s.inst := rfl

@[simp] theorem rejectOne_rx (s : State) : (rejectOne s).rx = s.rx.drop 1 := rfl
@[simp] theorem rejectOne_mal (s : State) : (rejectOne s).mal = satInc s.mal := rfl
@[simp] theorem rejectOne_drop (s : State) : (rejectOne s).drop = satInc s.drop := rfl
@[simp] theorem rejectOne_fault (s : State) : (rejectOne s).fault = s.fault := rfl
@[simp] theorem rejectOne_cursor (s : State) : (rejectOne s).cursor = s.cursor + 1 := rfl
@[simp] theorem rejectOne_tx (s : State) : (rejectOne s).tx = s.tx := rfl
@[simp] theorem rejectOne_delivered (s : State) : (rejectOne s).delivered = s.delivered := rfl
@[simp] theorem rejectOne_result (s : State) : (rejectOne s).result = s.result := rfl
@[simp] theorem rejectOne_requests (s : State) : (rejectOne s).requests = s.requests := rfl
@[simp] theorem rejectOne_inst (s : State) : (rejectOne s).inst = s.inst := rfl

@[simp] theorem acceptFrame_rx (s : State) (f : Bytes) : (acceptFrame s f).rx = s.rx.drop f.length := rfl
@[simp] theorem acceptFrame_mal (s : State) (f : Bytes) : (acceptFrame s f).mal = 0 := rfl
@[simp] theorem acceptFrame_drop (s : State) (f : Bytes) : (acceptFrame s f).drop = s.drop := rfl
@[simp] theorem acceptFrame_fault (s : State) (f : Bytes) : (acceptFrame s f).fault = s.fault := rfl
@[simp] theorem acceptFrame_cursor (s : State) (f : Bytes) : (acceptFrame s f).cursor = s.cursor + f.length := rfl
@[simp] theorem acceptFrame_tx (s : State) (f : Bytes) : (acceptFrame s f).tx = s.tx := rfl
@[simp] theorem acceptFrame_delivered (s : State) (f : Bytes) : (acceptFrame s f).delivered = s.delivered ++ [f] := rfl
@[simp] theorem acceptFrame_result (s : State) (f : Bytes) : (acceptFrame s f).result = s.result := rfl
@[simp] theorem acceptFrame_requests (s : State) (f : Bytes) : (acceptFrame s f).requests = s.requests := rfl
@[simp] theorem acceptFrame_inst (s : State) (f : Bytes) : (acceptFrame s f).inst = s.inst := rfl

@[simp] theorem pushBytes_rx (s : State) (data : Bytes) : (pushBytes s data).rx = s.rx ++ data := rfl
@[simp] theorem pushBytes_mal (s : State) (data : Bytes) : (pushBytes s data).mal = s.mal := rfl
@[simp] theorem pushBytes_drop (s : State) (data : Bytes) : (pushBytes s data).drop = s.drop := rfl
@[simp] theorem pushBytes_fault (s : State) (data : Bytes) : (pushBytes s data).fault = s.fault := rfl
@[simp] theorem pushBytes_cursor (s : State) (data : Bytes) : (pushBytes s data).cursor = s.cursor := rfl
@[simp] theorem pushBytes_tx (s : State) (data : Bytes) : (pushBytes s data).tx = s.tx := rfl
@[simp] theorem pushBytes_delivered (s : State) (data : Bytes) : (pushBytes s data).delivered = s.delivered := rfl
@[simp] theorem pushBytes_result (s : State) (data : Bytes) : (pushBytes s data).result = s.result := rfl
@[simp] theorem pushBytes_requests (s : State) (data : Bytes) : (pushBytes s data).requests = s.requests := rfl
@[simp] theorem pushBytes_inst (s : State) (data : Bytes) : (pushBytes s data).inst = s.inst := rfl

@[simp] theorem clearDecoder_rx (s : State) : (clearDecoder s).rx = [] := rfl
@[simp] theorem clearDecoder_mal (s : State) : (clearDecoder s).mal = 0 := rfl
@[simp] theorem clearDecoder_drop (s : State) : (clearDecoder s).drop = 0 := rfl
@[simp] theorem clearDecoder_fault (s : State) : (clearDecoder s).fault = s.fault := rfl
@[simp] theorem clearDecoder_cursor (s : State) : (clearDecoder s).cursor = 0 := rfl
@[simp] theorem clearDecoder_tx (s : State) : (clearDecoder s).tx = s.tx := rfl
@[simp] theorem clearDecoder_delivered (s : State) : (clearDecoder s).delivered = s.delivered := rfl
@[simp] theorem clearDecoder_result (s : State) : (clearDecoder s).result = s.result := rfl
@[simp] theorem clearDecoder_requests (s : State) : (clearDecoder s).requests = s.requests := rfl
@[simp] theorem clearDecoder_inst (s : State) : (clearDecoder s).inst = s.inst := rfl

@[simp] theorem create_rx (i : Instance) : (State.create i).rx = [] := rfl
@[simp] theorem create_mal (i : Instance) : (State.create i).mal = 0 := rfl
@[simp] theorem create_drop (i : Instance) : (State.create i).drop = 0 := rfl
@[simp] theorem create_fault (i : Instance) : (State.create i).fault = none := rfl
@[simp] theorem create_cursor (i : Instance) : (State.create i).cursor = 0 := rfl
@[simp] theorem create_tx (i : Instance) : (State.create i).tx = [] := rfl
@[simp] theorem create_delivered (i : Instance) : (State.create i).delivered = [] := rfl
@[simp] theorem create_result (i : Instance) : (State.create i).result = none := rfl
@[simp] theorem create_requests (i : Instance) : (State.create i).requests = [] := rfl
@[simp] theorem create_inst (i : Instance) : (State.create i).inst = i := rfl

end Sys2Proof.Machine
end

