-- ==== Sys2Proof/Laws/Ops.lean ====
section
/-! SUPPORT. What each shared operation can do, said once. -/

namespace Sys2Proof.Machine

/-! ### The fault prelude -/

@[simp] theorem whenLive_live {s : State} {k : Answer} (h : s.fault = none) : whenLive s k = k := by
  simp [whenLive, h]

@[simp] theorem whenLive_faulted {s : State} {k : Answer} {f : FaultCode} (h : s.fault = some f) :
    whenLive s k = .fault .haltedBlock := by
  simp [whenLive, h]

/-- A guarded operation answers a next state exactly when the block is live and the operation does. -/
theorem whenLive_eq_next {s t : State} {k : Answer} : whenLive s k = .next t ↔ s.fault = none ∧ k = .next t := by
  cases h : s.fault <;> simp [h]

/-! ### The counters -/

theorem sat_toNat (n : Nat) : (sat n).toNat = min n counterMax := by
  simp only [sat, BitVec.toNat_ofNat, counterMax]
  omega

theorem satInc_toNat (c : BitVec 32) : (satInc c).toNat = min (c.toNat + 1) counterMax := sat_toNat _

/-- When a rejection surfaces an alarm. -/
theorem alarmAt_eq_some {threshold : Option Nat} {old k : BitVec 32} :
    alarmAt threshold old = some k ↔ threshold = some k.toNat ∧ old.toNat + 1 = k.toNat := by
  have hk := k.isLt
  have hmax : counterMax = 4294967295 := rfl
  cases threshold with
  | none => simp [alarmAt]
  | some n =>
    simp only [alarmAt, Option.some.injEq]
    by_cases h : old.toNat + 1 = n ∧ n ≤ counterMax
    · rw [if_pos h, Option.some.injEq]
      constructor
      · rintro rfl
        simp only [BitVec.toNat_ofNat]
        omega
      · rintro ⟨rfl, _⟩
        simp
    · rw [if_neg h]
      simp only [reduceCtorEq, false_iff]
      rintro ⟨rfl, h'⟩
      exact h ⟨h', by omega⟩

/-! ### The encoder's shared operations -/

/-- What an operation of one control frame can do: send it, in a live block. -/
theorem encodeControl_eq_next {t : Byte} {p : Bytes} {s u : State} :
    encodeControl t p s = .next u ↔ s.fault = none ∧ u = emit s (frameC5 s.inst.cfg t p) := by
  simp only [encodeControl, whenLive_eq_next, Host.Outcome.next.injEq]
  exact and_congr_right fun _ => eq_comm

/-- What `frame_c16` can do: the frame within LMAX, or the fault. -/
theorem frameC16_cases (cfg : Cfg) (pre : Preamble) (t : Byte) (p : Bytes) :
    (4 + p.length ≤ cfg.lmax.toNat ∧ frameC16 cfg pre t p =
      .ok (preambleBytes pre ++ ([t, BitVec.ofNat 8 (4 + p.length)] ++ p)
        ++ be16 (crc16 cfg ([t, BitVec.ofNat 8 (4 + p.length)] ++ p)))) ∨
    (cfg.lmax.toNat < 4 + p.length ∧ frameC16 cfg pre t p = .error (.payloadTooLong (4 + p.length))) := by
  simp only [frameC16]
  split
  · exact .inr ⟨‹_›, rfl⟩
  · exact .inl ⟨by omega, rfl⟩

/-- What an operation of one long frame can do: send it after the bytes before it, or take the fault. -/
theorem encodeLong_eq_next {before : Bytes} {pre : Preamble} {t : Byte} {p : Bytes} {s u : State} :
    encodeLong before pre t p s = .next u ↔
      s.fault = none ∧
        ((∃ out, frameC16 s.inst.cfg pre t p = .ok out ∧ u = emit s (before ++ out)) ∨
         (∃ f, frameC16 s.inst.cfg pre t p = .error f ∧ u = takeFault s f)) := by
  simp only [encodeLong, whenLive_eq_next, Host.Outcome.next.injEq]
  cases frameC16 s.inst.cfg pre t p <;> simp [eq_comm]

/-- The one fault of `frame_c16` is a length beyond LMAX. -/
theorem frameC16_error {cfg : Cfg} {pre : Preamble} {t : Byte} {p : Bytes} {f : FaultCode}
    (h : frameC16 cfg pre t p = .error f) : f = .payloadTooLong (4 + p.length) ∧ cfg.lmax.toNat < 4 + p.length := by
  rcases frameC16_cases cfg pre t p with ⟨_, h'⟩ | ⟨hl, h'⟩
  · simp [h'] at h
  · rw [h'] at h
    exact ⟨by simpa using h.symm, hl⟩

end Sys2Proof.Machine
end

