-- ==== Sys2Proof/Laws/Decoder.lean ====
section
/-! SUPPORT. What the scan step can do, said once, shape by shape and as one case analysis; later bytes do not change a
decision. -/

namespace Sys2Proof.Machine

/-! ### The scan step, shape by shape (42_decoder.md R162) -/

theorem scanStep_nil {s : State} (h : s.rx = []) : scanStep s = (s, .needMore) := by
  simp [scanStep, h]

theorem scanStep_first {s : State} {b : Byte} {rest : Bytes} (h : s.rx = b :: rest) (hb : b ≠ (rxPreamble s.inst).b0) :
    scanStep s = (discard1 s, .continued) := by
  simp [scanStep, h, hb]

theorem scanStep_lone {s : State} (h : s.rx = [(rxPreamble s.inst).b0]) : scanStep s = (s, .needMore) := by
  simp [scanStep, h]

theorem scanStep_second {s : State} {b : Byte} {rest : Bytes} (h : s.rx = (rxPreamble s.inst).b0 :: b :: rest)
    (hb : b ≠ (rxPreamble s.inst).b1) : scanStep s = (discard1 s, .continued) := by
  simp [scanStep, h, hb]

theorem scanStep_short {s : State} {rest : Bytes} (h : s.rx = (rxPreamble s.inst).b0 :: (rxPreamble s.inst).b1 :: rest)
    (hl : rest.length < 2) : scanStep s = (s, .needMore) := by
  match rest, hl with
  | [], _ => simp [scanStep, h]
  | [_], _ => simp [scanStep, h]

theorem scanStep_candidate {s : State} {t l : Byte} {rest : Bytes}
    (h : s.rx = (rxPreamble s.inst).b0 :: (rxPreamble s.inst).b1 :: t :: l :: rest) :
    scanStep s = screenCandidate s t l := by
  simp [scanStep, h]

/-- What the screening of a candidate can do. -/
theorem screenCandidate_cases (s : State) (t l : Byte) :
    (screenCandidate s t l = reject s ∧
      (acceptedClass s.inst.dir t = none ∨
        ∃ c, acceptedClass s.inst.dir t = some c ∧ (l.toNat < minL c ∨
          (2 + l.toNat ≤ s.rx.length ∧ valid s.inst.cfg c (s.rx.take (2 + l.toNat)) = false)))) ∨
    (screenCandidate s t l = (s, .needMore) ∧
      ∃ c, acceptedClass s.inst.dir t = some c ∧ minL c ≤ l.toNat ∧ s.rx.length < 2 + l.toNat) ∨
    (screenCandidate s t l = (acceptFrame s (s.rx.take (2 + l.toNat)), .frame (s.rx.take (2 + l.toNat))) ∧
      ∃ c, acceptedClass s.inst.dir t = some c ∧ minL c ≤ l.toNat ∧ 2 + l.toNat ≤ s.rx.length ∧
        valid s.inst.cfg c (s.rx.take (2 + l.toNat)) = true) := by
  unfold screenCandidate
  split
  · exact .inl ⟨rfl, .inl ‹_›⟩
  · rename_i c hc
    by_cases hm : l.toNat < minL c
    · exact .inl ⟨by rw [if_pos hm], .inr ⟨c, hc, .inl hm⟩⟩
    · rw [if_neg hm]
      unfold decideCandidate
      by_cases hlen : s.rx.length < 2 + l.toNat
      · exact .inr (.inl ⟨by rw [if_pos hlen], c, hc, by omega, hlen⟩)
      · rw [if_neg hlen]
        cases hv : valid s.inst.cfg c (s.rx.take (2 + l.toNat))
        · exact .inl ⟨by simp, .inr ⟨c, hc, .inr ⟨by omega, hv⟩⟩⟩
        · exact .inr (.inr ⟨by simp, c, hc, by omega, by omega, hv⟩)

/-- When a candidate is rejected (42_decoder.md R164). -/
theorem screenCandidate_reject {s : State} {t l : Byte}
    (h : acceptedClass s.inst.dir t = none ∨
      ∃ c, acceptedClass s.inst.dir t = some c ∧ (l.toNat < minL c ∨
        (2 + l.toNat ≤ s.rx.length ∧ valid s.inst.cfg c (s.rx.take (2 + l.toNat)) = false))) :
    screenCandidate s t l = reject s := by
  unfold screenCandidate
  rcases h with h | ⟨c, hc, h⟩
  · rw [h]
  · rw [hc]
    by_cases hm : l.toNat < minL c
    · simp [hm]
    · obtain ⟨hl, hv⟩ := h.resolve_left hm
      simp [hm, decideCandidate, Nat.not_lt.2 hl, hv]

/-- When a candidate is accepted (42_decoder.md R166). -/
theorem screenCandidate_accept {s : State} {t l : Byte} {c : FrameClass} (hc : acceptedClass s.inst.dir t = some c)
    (hm : minL c ≤ l.toNat) (hl : 2 + l.toNat ≤ s.rx.length)
    (hv : valid s.inst.cfg c (s.rx.take (2 + l.toNat)) = true) :
    screenCandidate s t l = (acceptFrame s (s.rx.take (2 + l.toNat)), .frame (s.rx.take (2 + l.toNat))) := by
  simp [screenCandidate, hc, Nat.not_lt.2 hm, decideCandidate, Nat.not_lt.2 hl, hv]

/-- When a candidate waits for more bytes (42_decoder.md R165). -/
theorem screenCandidate_wait {s : State} {t l : Byte} {c : FrameClass} (hc : acceptedClass s.inst.dir t = some c)
    (hm : minL c ≤ l.toNat) (hl : s.rx.length < 2 + l.toNat) : screenCandidate s t l = (s, .needMore) := by
  simp [screenCandidate, hc, Nat.not_lt.2 hm, decideCandidate, hl]

/-- What an accepted frame is, byte by byte. -/
theorem acceptedFrame_eq_true {i : Instance} {f : Bytes} :
    acceptedFrame i f = true ↔ ∃ (t l : Byte) (rest : Bytes) (c : FrameClass),
      f = (rxPreamble i).b0 :: (rxPreamble i).b1 :: t :: l :: rest ∧ acceptedClass i.dir t = some c ∧
      minL c ≤ l.toNat ∧ f.length = 2 + l.toNat ∧ valid i.cfg c f = true := by
  constructor
  · intro h
    match f, h with
    | b0 :: b1 :: t :: l :: rest, h =>
      simp only [acceptedFrame] at h
      split at h
      · simp at h
      · rename_i c hc
        simp only [Bool.and_eq_true, beq_iff_eq, decide_eq_true_eq] at h
        obtain ⟨⟨⟨⟨rfl, rfl⟩, hm⟩, hl⟩, hv⟩ := h
        exact ⟨t, l, rest, c, rfl, hc, hm, hl, hv⟩
  · rintro ⟨t, l, rest, c, rfl, hc, hm, hl, hv⟩
    simp only [acceptedFrame, hc, Bool.and_eq_true, beq_iff_eq, decide_eq_true_eq]
    exact ⟨⟨⟨⟨trivial, trivial⟩, hm⟩, hl⟩, hv⟩

/-- The four things a scan step can do, each with when it does it. -/
theorem scanStep_cases (s : State) :
    scanStep s = (s, .needMore) ∨
    (scanStep s = (discard1 s, .continued) ∧ s.rx ≠ []) ∨
    (scanStep s = reject s ∧ s.rx ≠ []) ∨
    (∃ f rest, s.rx = f ++ rest ∧ acceptedFrame s.inst f = true ∧ scanStep s = (acceptFrame s f, .frame f)) := by
  match hrx : s.rx with
  | [] => exact .inl (scanStep_nil hrx)
  | b0 :: rest =>
    by_cases h0 : b0 = (rxPreamble s.inst).b0
    · subst h0
      match rest with
      | [] => exact .inl (scanStep_lone hrx)
      | b1 :: rest =>
        by_cases h1 : b1 = (rxPreamble s.inst).b1
        · subst h1
          match rest with
          | [] => exact .inl (scanStep_short hrx (by simp))
          | [_] => exact .inl (scanStep_short hrx (by simp))
          | t :: l :: rest =>
            rw [scanStep_candidate hrx, ← hrx]
            rcases screenCandidate_cases s t l with ⟨h, _⟩ | ⟨h, _⟩ | ⟨h, c, hc, hm, hl, hv⟩
            · exact .inr (.inr (.inl ⟨h, by simp [hrx]⟩))
            · exact .inl h
            · refine .inr (.inr (.inr ⟨s.rx.take (2 + l.toNat), s.rx.drop (2 + l.toNat), by simp, ?_, ?_⟩))
              · refine acceptedFrame_eq_true.2 ⟨t, l, rest.take (l.toNat - 2), c, ?_, hc, hm, by simp [hl], hv⟩
                have hmin : 3 ≤ minL c := by cases c <;> simp [minL]
                rw [hrx, show 2 + l.toNat = (l.toNat - 2) + 4 by omega]
                simp
              · exact h
        · exact .inr (.inl ⟨scanStep_second hrx h1, by simp⟩)
    · exact .inr (.inl ⟨scanStep_first hrx h0, by simp⟩)

/-- A frame at the front of the buffer that a decoder accepts is delivered, whatever follows it. -/
theorem scanStep_accepts {s : State} {f rest : Bytes} (hrx : s.rx = f ++ rest) (hf : acceptedFrame s.inst f = true) :
    scanStep s = (acceptFrame s f, .frame f) := by
  obtain ⟨t, l, tail, c, rfl, hc, hm, hl, hv⟩ := acceptedFrame_eq_true.1 hf
  have htake : s.rx.take (2 + l.toNat) =
      (rxPreamble s.inst).b0 :: (rxPreamble s.inst).b1 :: t :: l :: tail := by
    rw [hrx, ← hl, List.take_left]
  rw [scanStep_candidate (by simpa using hrx)]
  rcases screenCandidate_cases s t l with ⟨_, h | ⟨c', hc', h | ⟨_, h⟩⟩⟩ | ⟨_, c', _, _, h⟩ | ⟨h, _⟩
  · simp [hc] at h
  · obtain rfl : c = c' := by simpa [hc] using hc'
    omega
  · obtain rfl : c = c' := by simpa [hc] using hc'
    rw [htake, hv] at h
    simp at h
  · rw [hrx, List.length_append, hl] at h
    omega
  · rw [h, htake]

/-- The two answers of a rejection. -/
theorem reject_snd (s : State) :
    ((reject s).2 = .continued ∧ alarmAt s.inst.malThreshold s.mal = none) ∨
    ∃ k, (reject s).2 = .alarm k ∧ alarmAt s.inst.malThreshold s.mal = some k := by
  simp only [reject]
  cases alarmAt s.inst.malThreshold s.mal <;> simp

@[simp] theorem reject_fst (s : State) : (reject s).1 = rejectOne s := rfl

/-- What no scan step touches. -/
theorem scanStep_keeps (s : State) :
    (scanStep s).1.inst = s.inst ∧ (scanStep s).1.fault = s.fault ∧ (scanStep s).1.tx = s.tx ∧
    (scanStep s).1.requests = s.requests ∧ (scanStep s).1.result = s.result := by
  rcases scanStep_cases s with h | ⟨h, _⟩ | ⟨h, _⟩ | ⟨f, rest, _, _, h⟩ <;> simp [h]

/-- A step that delivers a frame records it, and no other step touches the record (30_encoding.md R91, log 9). -/
theorem scanStep_delivered (s : State) :
    (∃ f, (scanStep s).2 = .frame f ∧ (scanStep s).1.delivered = s.delivered ++ [f]) ∨
    ((∀ f, (scanStep s).2 ≠ .frame f) ∧ (scanStep s).1.delivered = s.delivered) := by
  rcases scanStep_cases s with h | ⟨h, _⟩ | ⟨h, _⟩ | ⟨f, rest, _, _, h⟩
  · exact .inr (by simp [h])
  · exact .inr (by simp [h])
  · rcases reject_snd s with ⟨hr, _⟩ | ⟨k, hr, _⟩ <;> exact .inr (by simp [h, hr])
  · exact .inl ⟨f, by simp [h]⟩

/-- A step that answers Continue or Alarm takes exactly one byte. -/
theorem scanStep_takes_one {s t : State} {r : StepResult} (h : scanStep s = (t, r))
    (hr : r = .continued ∨ ∃ k, r = .alarm k) : t.rx = s.rx.drop 1 ∧ t.cursor = s.cursor + 1 ∧ s.rx ≠ [] := by
  rcases scanStep_cases s with h' | ⟨h', hne⟩ | ⟨h', hne⟩ | ⟨f, rest, _, _, h'⟩ <;> rw [h'] at h
  · obtain ⟨rfl, rfl⟩ := Prod.mk.inj h
    simp at hr
  · obtain ⟨rfl, rfl⟩ := Prod.mk.inj h
    exact ⟨rfl, rfl, hne⟩
  · obtain ⟨rfl, rfl⟩ := Prod.mk.inj h
    exact ⟨rfl, rfl, hne⟩
  · obtain ⟨rfl, rfl⟩ := Prod.mk.inj h
    simp at hr

/-! ### Later bytes do not change a decision (42_decoder.md R165, R182) -/

/-- A step that answers anything but NeedMore answers the same with more bytes behind, and leaves them behind. -/
theorem scanStep_append {s t : State} {r : StepResult} (h : scanStep s = (t, r)) (hr : r ≠ .needMore) (more : Bytes) :
    scanStep (pushBytes s more) = (pushBytes t more, r) := by
  have hmove : ∀ n, n ≤ s.rx.length → (s.rx ++ more).drop n = s.rx.drop n ++ more := fun n hn => by
    rw [List.drop_append_of_le_length hn]
  match hrx : s.rx with
  | [] =>
    rw [scanStep_nil hrx] at h
    exact absurd (Prod.mk.inj h).2.symm hr
  | b0 :: rest =>
    have hd : discard1 (pushBytes s more) = pushBytes (discard1 s) more := by
      simp [discard1, pushBytes, hrx]
    have hj : reject (pushBytes s more) = (pushBytes (reject s).1 more, (reject s).2) := by
      simp [reject, rejectOne, discard1, pushBytes, hrx]
    by_cases h0 : b0 = (rxPreamble s.inst).b0
    · subst h0
      match rest with
      | [] =>
        rw [scanStep_lone hrx] at h
        exact absurd (Prod.mk.inj h).2.symm hr
      | b1 :: rest =>
        by_cases h1 : b1 = (rxPreamble s.inst).b1
        · subst h1
          match rest with
          | [] =>
            rw [scanStep_short hrx (by simp)] at h
            exact absurd (Prod.mk.inj h).2.symm hr
          | [_] =>
            rw [scanStep_short hrx (by simp)] at h
            exact absurd (Prod.mk.inj h).2.symm hr
          | t' :: l :: rest =>
            have hrx' : (pushBytes s more).rx =
                (rxPreamble (pushBytes s more).inst).b0 :: (rxPreamble (pushBytes s more).inst).b1 :: t' :: l ::
                  (rest ++ more) := by simp [hrx]
            rw [scanStep_candidate hrx] at h
            rw [scanStep_candidate hrx']
            have hlen : s.rx.length ≤ (pushBytes s more).rx.length := by simp
            rcases screenCandidate_cases s t' l with ⟨h', hwhy⟩ | ⟨h', _⟩ | ⟨h', c, hc, hm, hl, hv⟩
            · rw [h'] at h
              rw [screenCandidate_reject (s := pushBytes s more), hj, h]
              refine hwhy.imp id fun ⟨c, hc, hwhy⟩ => ⟨c, hc, hwhy.imp id fun ⟨hl, hv⟩ => ⟨by omega, ?_⟩⟩
              rw [pushBytes_rx, List.take_append_of_le_length hl]
              exact hv
            · rw [h'] at h
              exact absurd (Prod.mk.inj h).2.symm hr
            · rw [h'] at h
              obtain ⟨rfl, rfl⟩ := Prod.mk.inj h
              have htake : (pushBytes s more).rx.take (2 + l.toNat) = s.rx.take (2 + l.toNat) := by
                rw [pushBytes_rx, List.take_append_of_le_length hl]
              rw [screenCandidate_accept (s := pushBytes s more) (c := c) hc hm (by omega) (by rw [htake]; exact hv), htake]
              simp only [acceptFrame, pushBytes, hmove _ (List.length_take_le' _ _)]
        · rw [scanStep_second hrx h1] at h
          obtain ⟨rfl, rfl⟩ := Prod.mk.inj h
          rw [scanStep_second (s := pushBytes s more) (b := b1) (rest := rest ++ more) (by simp [hrx]) (by simpa using h1),
            hd]
    · rw [scanStep_first hrx h0] at h
      obtain ⟨rfl, rfl⟩ := Prod.mk.inj h
      rw [scanStep_first (s := pushBytes s more) (b := b0) (rest := rest ++ more) (by simp [hrx]) (by simpa using h0), hd]

/-! ### The loop of DEC_POLL (42_decoder.md R169, R176) -/

/-- More fuel than the buffer has bytes changes nothing. -/
theorem pollLoop_fuel (fuel : Nat) (s : State) (h : s.rx.length + 1 ≤ fuel) : pollLoop fuel s = poll s := by
  suffices ∀ n m (s : State), s.rx.length + 1 ≤ n → s.rx.length + 1 ≤ m → pollLoop n s = pollLoop m s from
    this fuel (s.rx.length + 1) s h (Nat.le_refl _)
  intro n
  induction n with
  | zero => intro m s hn; omega
  | succ n ih =>
    intro m s hn hm
    obtain ⟨m, rfl⟩ : ∃ k, m = k + 1 := ⟨m - 1, by omega⟩
    simp only [pollLoop]
    split <;> try rfl
    rename_i t ht
    obtain ⟨hrx, _, hne⟩ := scanStep_takes_one ht (.inl rfl)
    have hpos : 0 < s.rx.length := List.length_pos_iff.2 hne
    have hlen : t.rx.length = s.rx.length - 1 := by rw [hrx, List.length_drop]
    exact ih m t (by omega) (by omega)

/-- DEC_POLL unrolled by one step. -/
theorem poll_eq (s : State) :
    poll s = match scanStep s with
      | (t, .continued) => poll t
      | (t, .needMore) => (t, .needMore)
      | (t, .alarm n) => (t, .alarm n)
      | (t, .frame f) => (t, .frame f (parse f)) := by
  conv => lhs; unfold poll pollLoop
  rcases hstep : scanStep s with ⟨t, r⟩
  cases r <;> try rfl
  have ht := hstep
  obtain ⟨hrx, _, hne⟩ := scanStep_takes_one ht (.inl rfl)
  have hpos : 0 < s.rx.length := List.length_pos_iff.2 hne
  have hlen : t.rx.length = s.rx.length - 1 := by rw [hrx, List.length_drop]
  exact pollLoop_fuel s.rx.length t (by omega)

/-- The induction that goes with DEC_POLL: a property of every state whose scan step ends the loop, kept backwards along
every Continue, holds of every state. -/
theorem poll_induction {P : State → Prop}
    (stop : ∀ s t r, scanStep s = (t, r) → r ≠ .continued → P s)
    (go : ∀ s t, scanStep s = (t, .continued) → P t → P s) (s : State) : P s := by
  suffices ∀ n (s : State), s.rx.length ≤ n → P s from this _ s (Nat.le_refl _)
  intro n
  induction n with
  | zero =>
    intro s hs
    refine stop s s .needMore (scanStep_nil (List.length_eq_zero_iff.1 (by omega))) (by simp)
  | succ n ih =>
    intro s hs
    match hstep : scanStep s with
    | (t, .continued) =>
      obtain ⟨hrx, _, hne⟩ := scanStep_takes_one hstep (.inl rfl)
      have hpos : 0 < s.rx.length := List.length_pos_iff.2 hne
      have hlen : t.rx.length = s.rx.length - 1 := by rw [hrx, List.length_drop]
      exact go s t hstep (ih t (by omega))
    | (t, .needMore) => exact stop s t _ hstep (by simp)
    | (t, .alarm k) => exact stop s t _ hstep (by simp)
    | (t, .frame f) => exact stop s t _ hstep (by simp)

/-- A poll that delivers a frame records it, and no other poll touches the record. -/
theorem poll_delivered (s : State) :
    (∃ f v, (poll s).2 = .frame f v ∧ (poll s).1.delivered = s.delivered ++ [f]) ∨
    ((∀ f v, (poll s).2 ≠ .frame f v) ∧ (poll s).1.delivered = s.delivered) := by
  induction s using poll_induction with
  | stop s t r hs hr =>
    have hstep := scanStep_delivered s
    rw [hs] at hstep
    rw [poll_eq, hs]
    cases r <;> simp_all
  | go s t hs ih =>
    have hstep := scanStep_delivered s
    rw [hs] at hstep
    rw [show poll s = poll t by rw [poll_eq, hs]]
    simpa [show t.delivered = s.delivered by simpa using hstep] using ih

/-! ### What an operation returned plays no part in the scan -/

theorem screenCandidate_returning (s : State) (r : OpResult) (t l : Byte) :
    screenCandidate (returning s r) t l = (returning (screenCandidate s t l).1 r, (screenCandidate s t l).2) := by
  rcases screenCandidate_cases s t l with ⟨h, hwhy⟩ | ⟨h, c, hc, hm, hl⟩ | ⟨h, c, hc, hm, hl, hv⟩
  · rw [h, screenCandidate_reject (s := returning s r) hwhy]
    rfl
  · rw [h, screenCandidate_wait (s := returning s r) hc hm hl]
  · rw [h, screenCandidate_accept (s := returning s r) hc hm hl hv]
    rfl

theorem scanStep_returning (s : State) (r : OpResult) :
    scanStep (returning s r) = (returning (scanStep s).1 r, (scanStep s).2) := by
  match hrx : s.rx with
  | [] => rw [scanStep_nil hrx, scanStep_nil (s := returning s r) hrx]
  | b0 :: rest =>
    by_cases h0 : b0 = (rxPreamble s.inst).b0
    · subst h0
      match rest with
      | [] => rw [scanStep_lone hrx, scanStep_lone (s := returning s r) hrx]
      | b1 :: rest =>
        by_cases h1 : b1 = (rxPreamble s.inst).b1
        · subst h1
          match rest with
          | [] => rw [scanStep_short hrx (by simp), scanStep_short (s := returning s r) hrx (by simp)]
          | [_] => rw [scanStep_short hrx (by simp), scanStep_short (s := returning s r) hrx (by simp)]
          | t :: l :: rest =>
            rw [scanStep_candidate hrx, scanStep_candidate (s := returning s r) hrx, screenCandidate_returning]
        · rw [scanStep_second hrx h1, scanStep_second (s := returning s r) hrx h1]
          rfl
    · rw [scanStep_first hrx h0, scanStep_first (s := returning s r) hrx h0]
      rfl

theorem poll_returning (s : State) (r : OpResult) : poll (returning s r) = (returning (poll s).1 r, (poll s).2) := by
  induction s using poll_induction with
  | stop s t r' hs hr =>
    rw [poll_eq, poll_eq s, scanStep_returning, hs]
    cases r' <;> simp_all
  | go s t hs ih =>
    rw [poll_eq, poll_eq s, scanStep_returning, hs]
    exact ih

end Sys2Proof.Machine
end

