-- ==== Sys2Proof/Laws/PerInstr.lean ====
section
/-! SUPPORT. Per instruction: the first byte of its encoding is the "match" byte of its row of spec/opcode_table.json, and
that byte selects its row in its encoding. -/

namespace Sys2Proof.Laws

/-- The first byte of an instruction's encoding is a code that selects the instruction's own row (30_encoding.md R67, R68,
R90). -/
def HeadByte.Statement (i : Instr) : Prop :=
  ∃ code, (encode i).head? = some code ∧ (i.row, spaceOf i, code) ∈ opcodeTable ∧ rowOfCode (spaceOf i) code = some i.row

theorem HeadByte.crc5 (data : Bytes) : HeadByte.Statement (.crc5 data) :=
  ⟨codeOf (.crc5 data), rfl, by simp only [Instr.row, spaceOf, codeOf]; decide, by simp only [Instr.row, spaceOf, codeOf]; decide⟩

theorem HeadByte.crc16 (data : Bytes) : HeadByte.Statement (.crc16 data) :=
  ⟨codeOf (.crc16 data), rfl, by simp only [Instr.row, spaceOf, codeOf]; decide, by simp only [Instr.row, spaceOf, codeOf]; decide⟩

theorem HeadByte.encSetaddr (a : Byte) : HeadByte.Statement (.encSetaddr a) :=
  ⟨codeOf (.encSetaddr a), rfl, by simp only [Instr.row, spaceOf, codeOf]; decide, by simp only [Instr.row, spaceOf, codeOf]; decide⟩

theorem HeadByte.encInactive : HeadByte.Statement .encInactive :=
  ⟨codeOf .encInactive, rfl, by simp only [Instr.row, spaceOf, codeOf]; decide, by simp only [Instr.row, spaceOf, codeOf]; decide⟩

theorem HeadByte.encRead (m : Mode) (a : Byte) (g : Byte) : HeadByte.Statement (.encRead m a g) :=
  ⟨codeOf (.encRead m a g), rfl, by simp only [Instr.row, spaceOf, codeOf]; decide, by simp only [Instr.row, spaceOf, codeOf]; decide⟩

theorem HeadByte.encWrite (m : Mode) (a : Byte) (g : Byte) (v : BitVec 32) : HeadByte.Statement (.encWrite m a g v) :=
  ⟨codeOf (.encWrite m a g v), rfl, by simp only [Instr.row, spaceOf, codeOf]; decide, by simp only [Instr.row, spaceOf, codeOf]; decide⟩

theorem HeadByte.encBaud (n : Nat) : HeadByte.Statement (.encBaud n) :=
  ⟨codeOf (.encBaud n), rfl, by simp only [Instr.row, spaceOf, codeOf]; decide, by simp only [Instr.row, spaceOf, codeOf]; decide⟩

theorem HeadByte.encJob (j : Byte) (w : Bytes) (m : Option (BitVec 32)) : HeadByte.Statement (.encJob j w m) :=
  ⟨codeOf (.encJob j w m), rfl, by simp only [Instr.row, spaceOf, codeOf]; decide, by simp only [Instr.row, spaceOf, codeOf]; decide⟩

theorem HeadByte.encRreg (a : Byte) (g : Byte) (v : BitVec 32) : HeadByte.Statement (.encRreg a g v) :=
  ⟨codeOf (.encRreg a g v), rfl, by simp only [Instr.row, spaceOf, codeOf]; decide, by simp only [Instr.row, spaceOf, codeOf]; decide⟩

theorem HeadByte.encRjob (j : Byte) (a : Byte) (n : BitVec 32) (v : BitVec 16) : HeadByte.Statement (.encRjob j a n v) :=
  ⟨codeOf (.encRjob j a n v), rfl, by simp only [Instr.row, spaceOf, codeOf]; decide, by simp only [Instr.row, spaceOf, codeOf]; decide⟩

theorem HeadByte.decPush (data : Bytes) : HeadByte.Statement (.decPush data) :=
  ⟨codeOf (.decPush data), rfl, by simp only [Instr.row, spaceOf, codeOf]; decide, by simp only [Instr.row, spaceOf, codeOf]; decide⟩

theorem HeadByte.decStep : HeadByte.Statement .decStep :=
  ⟨codeOf .decStep, rfl, by simp only [Instr.row, spaceOf, codeOf]; decide, by simp only [Instr.row, spaceOf, codeOf]; decide⟩

theorem HeadByte.decPoll : HeadByte.Statement .decPoll :=
  ⟨codeOf .decPoll, rfl, by simp only [Instr.row, spaceOf, codeOf]; decide, by simp only [Instr.row, spaceOf, codeOf]; decide⟩

theorem HeadByte.decParse (f : Bytes) : HeadByte.Statement (.decParse f) :=
  ⟨codeOf (.decParse f), rfl, by simp only [Instr.row, spaceOf, codeOf]; decide, by simp only [Instr.row, spaceOf, codeOf]; decide⟩

theorem HeadByte.decReset : HeadByte.Statement .decReset :=
  ⟨codeOf .decReset, rfl, by simp only [Instr.row, spaceOf, codeOf]; decide, by simp only [Instr.row, spaceOf, codeOf]; decide⟩

theorem HeadByte.decStatus : HeadByte.Statement .decStatus :=
  ⟨codeOf .decStatus, rfl, by simp only [Instr.row, spaceOf, codeOf]; decide, by simp only [Instr.row, spaceOf, codeOf]; decide⟩

theorem HeadByte.frameSetaddr (a : Byte) : HeadByte.Statement (.frameSetaddr a) :=
  ⟨codeOf (.frameSetaddr a), rfl, by simp only [Instr.row, spaceOf, codeOf]; decide, by simp only [Instr.row, spaceOf, codeOf]; decide⟩

theorem HeadByte.frameWriteRegU (a : Byte) (g : Byte) (v : BitVec 32) : HeadByte.Statement (.frameWriteRegU a g v) :=
  ⟨codeOf (.frameWriteRegU a g v), rfl, by simp only [Instr.row, spaceOf, codeOf]; decide, by simp only [Instr.row, spaceOf, codeOf]; decide⟩

theorem HeadByte.frameWriteRegB (g : Byte) (v : BitVec 32) : HeadByte.Statement (.frameWriteRegB g v) :=
  ⟨codeOf (.frameWriteRegB g v), rfl, by simp only [Instr.row, spaceOf, codeOf]; decide, by simp only [Instr.row, spaceOf, codeOf]; decide⟩

theorem HeadByte.frameReadRegU (a : Byte) (g : Byte) : HeadByte.Statement (.frameReadRegU a g) :=
  ⟨codeOf (.frameReadRegU a g), rfl, by simp only [Instr.row, spaceOf, codeOf]; decide, by simp only [Instr.row, spaceOf, codeOf]; decide⟩

theorem HeadByte.frameReadRegB (g : Byte) : HeadByte.Statement (.frameReadRegB g) :=
  ⟨codeOf (.frameReadRegB g), rfl, by simp only [Instr.row, spaceOf, codeOf]; decide, by simp only [Instr.row, spaceOf, codeOf]; decide⟩

theorem HeadByte.frameChainInactive : HeadByte.Statement .frameChainInactive :=
  ⟨codeOf .frameChainInactive, rfl, by simp only [Instr.row, spaceOf, codeOf]; decide, by simp only [Instr.row, spaceOf, codeOf]; decide⟩

theorem HeadByte.frameJob (j : Byte) (w : Bytes) : HeadByte.Statement (.frameJob j w) :=
  ⟨codeOf (.frameJob j w), rfl, by simp only [Instr.row, spaceOf, codeOf]; decide, by simp only [Instr.row, spaceOf, codeOf]; decide⟩

theorem HeadByte.frameRespReg (a : Byte) (g : Byte) (v : BitVec 32) : HeadByte.Statement (.frameRespReg a g v) :=
  ⟨codeOf (.frameRespReg a g v), rfl, by simp only [Instr.row, spaceOf, codeOf]; decide, by simp only [Instr.row, spaceOf, codeOf]; decide⟩

theorem HeadByte.frameRespJob (j : Byte) (a : Byte) (n : BitVec 32) (v : BitVec 16) : HeadByte.Statement (.frameRespJob j a n v) :=
  ⟨codeOf (.frameRespJob j a n v), rfl, by simp only [Instr.row, spaceOf, codeOf]; decide, by simp only [Instr.row, spaceOf, codeOf]; decide⟩

end Sys2Proof.Laws
end

