-- ==== Sys2Proof/Machine/Assembly.lean ====
section
/-! DEFINITION. The textual form of an operation (30_encoding.md R92): one line of text to one interface operation. A
number outside its operand's type is no operand (R91), so the line is no operation. Spaces are skipped between the parts of
a line and between the bytes of a list (log 20). The wire header rows have no textual form. -/

namespace Sys2Proof.Machine

/-- Some text read so far: a value and the characters left; `none` where the grammar does not fit. -/
abbrev Scan (α : Type) := Option (α × List Char)

/-- The value of a hexadecimal digit, in either case. -/
def hexDigit (c : Char) : Option Nat :=
  if 48 ≤ c.toNat ∧ c.toNat ≤ 57 then some (c.toNat - 48)
  else if 65 ≤ c.toNat ∧ c.toNat ≤ 70 then some (c.toNat - 55)
  else if 97 ≤ c.toNat ∧ c.toNat ≤ 102 then some (c.toNat - 87)
  else none

/-- The value of a decimal digit. -/
def decDigit (c : Char) : Option Nat := if 48 ≤ c.toNat ∧ c.toNat ≤ 57 then some (c.toNat - 48) else none

/-- The digits at the front of a text, in a base, added to the number read so far. -/
def scanDigits (base : Nat) (digit : Char → Option Nat) : Nat → List Char → Nat × List Char
  | n, [] => (n, [])
  | n, c :: cs =>
    match digit c with
    | some d => scanDigits base digit (n * base + d) cs
    | none => (n, c :: cs)

/-- Leading spaces skipped. -/
def skipSpaces : List Char → List Char
  | [] => []
  | c :: cs => if c = ' ' then skipSpaces cs else c :: cs

/-- A number without leading spaces: at least one digit. -/
def scanNumber (base : Nat) (digit : Char → Option Nat) : List Char → Scan Nat
  | [] => none
  | c :: cs =>
    match digit c with
    | some d => some (scanDigits base digit d cs)
    | none => none

/-- `num` of R92: `0x` and hexadecimal digits, or decimal digits. -/
def scanNum (cs : List Char) : Scan Nat :=
  match skipSpaces cs with
  | '0' :: 'x' :: rest => scanNumber 16 hexDigit rest
  | rest => scanNumber 10 decDigit rest

/-- A number that fits `w` bits. -/
def scanWord (w : Nat) (cs : List Char) : Scan (BitVec w) :=
  match scanNum cs with
  | some (n, rest) => if n < 2 ^ w then some (BitVec.ofNat w n, rest) else none
  | none => none

/-- The bytes of a list up to its closing brace (character 125): two hexadecimal digits each. -/
def scanByteList : Bytes → List Char → Scan Bytes
  | acc, c :: d :: cs =>
    if c = ' ' then scanByteList acc (d :: cs)
    else if c.toNat = 125 then some (acc.reverse, d :: cs)
    else
      match hexDigit c, hexDigit d with
      | some h, some l => scanByteList (BitVec.ofNat 8 (16 * h + l) :: acc) cs
      | _, _ => none
  | acc, [c] => if c.toNat = 125 then some (acc.reverse, []) else none
  | _, [] => none

/-- `bytes` of R92: an opening brace (character 123), hexadecimal bytes, a closing brace. -/
def scanBytes (cs : List Char) : Scan Bytes :=
  match skipSpaces cs with
  | c :: rest => if c.toNat = 123 then scanByteList [] rest else none
  | [] => none

/-- A comma. -/
def scanComma (cs : List Char) : Scan Unit :=
  match skipSpaces cs with
  | ',' :: rest => some ((), rest)
  | _ => none

/-- A comma, then something. -/
def afterComma {α : Type} (scan : List Char → Scan α) (cs : List Char) : Scan α :=
  match scanComma cs with
  | some (_, rest) => scan rest
  | none => none

/-- The mode letter of `enc.read` and `enc.write`. -/
def scanMode (cs : List Char) : Scan Mode :=
  match skipSpaces cs with
  | 'u' :: rest => some (.unicast, rest)
  | 'b' :: rest => some (.broadcast, rest)
  | _ => none

/-- The address and the register of a mode: `u a, r`, or `b r` with the address 0. -/
def scanTarget (cs : List Char) : Scan (Mode × Byte × Byte) :=
  match scanMode cs with
  | some (.unicast, rest) =>
    (scanWord 8 rest).bind fun (addr, rest) =>
      (afterComma (scanWord 8) rest).map fun (reg, rest) => ((.unicast, addr, reg), rest)
  | some (.broadcast, rest) => (scanWord 8 rest).map fun (reg, rest) => ((.broadcast, 0, reg), rest)
  | none => none

/-- The optional last part of `enc.job`: `, mask=m`. -/
def scanMask (cs : List Char) : Scan (Option (BitVec 32)) :=
  match skipSpaces cs with
  | [] => some (none, [])
  | ',' :: rest =>
    match skipSpaces rest with
    | 'm' :: 'a' :: 's' :: 'k' :: '=' :: rest => (scanWord 32 rest).map fun (m, rest) => (some m, rest)
    | _ => none
  | _ => none

/-- The operands of a mnemonic. -/
def scanOperands (mnemonic : List Char) (cs : List Char) : Scan Instr :=
  if mnemonic = "crc5".toList then (scanBytes cs).map fun (d, r) => (.crc5 d, r)
  else if mnemonic = "crc16".toList then (scanBytes cs).map fun (d, r) => (.crc16 d, r)
  else if mnemonic = "enc.setaddr".toList then (scanWord 8 cs).map fun (a, r) => (.encSetaddr a, r)
  else if mnemonic = "enc.inactive".toList then some (.encInactive, cs)
  else if mnemonic = "enc.read".toList then (scanTarget cs).map fun (t, r) => (.encRead t.1 t.2.1 t.2.2, r)
  else if mnemonic = "enc.write".toList then
    (scanTarget cs).bind fun (t, r) =>
      (afterComma (scanWord 32) r).map fun (v, r) => (.encWrite t.1 t.2.1 t.2.2 v, r)
  else if mnemonic = "enc.baud".toList then (scanNum cs).map fun (n, r) => (.encBaud n, r)
  else if mnemonic = "enc.job".toList then
    (scanWord 8 cs).bind fun (j, r) => (afterComma scanBytes r).bind fun (w, r) =>
      (scanMask r).map fun (m, r) => (.encJob j w m, r)
  else if mnemonic = "enc.rreg".toList then
    (scanWord 8 cs).bind fun (a, r) => (afterComma (scanWord 8) r).bind fun (g, r) =>
      (afterComma (scanWord 32) r).map fun (v, r) => (.encRreg a g v, r)
  else if mnemonic = "enc.rjob".toList then
    (scanWord 8 cs).bind fun (j, r) => (afterComma (scanWord 8) r).bind fun (a, r) =>
      (afterComma (scanWord 32) r).bind fun (n, r) =>
        (afterComma (scanWord 16) r).map fun (v, r) => (.encRjob j a n v, r)
  else if mnemonic = "dec.push".toList then (scanBytes cs).map fun (d, r) => (.decPush d, r)
  else if mnemonic = "dec.step".toList then some (.decStep, cs)
  else if mnemonic = "dec.poll".toList then some (.decPoll, cs)
  else if mnemonic = "dec.parse".toList then (scanBytes cs).map fun (f, r) => (.decParse f, r)
  else if mnemonic = "dec.reset".toList then some (.decReset, cs)
  else if mnemonic = "dec.status".toList then some (.decStatus, cs)
  else none

/-- Whether a character belongs to a mnemonic: neither a space nor an opening brace (character 123). -/
def isMnemonicChar (c : Char) : Bool := c != ' ' && c.toNat != 123

/-- The operation a line of text is (R92): its mnemonic, its operands, and nothing after them. -/
def assemble (line : List Char) : Option Instr :=
  match scanOperands ((skipSpaces line).takeWhile isMnemonicChar) ((skipSpaces line).dropWhile isMnemonicChar) with
  | some (i, rest) => if skipSpaces rest = [] then some i else none
  | none => none

end Sys2Proof.Machine
end

