-- ==== Sys2Proof/Tests/Slice0.lean ====
section
/-! SUPPORT. The model's tests and the witnesses of the statements. An expected value named V<n> or P<n> is that vector of
95_test_vectors.md; a request's word is written out from the table's code byte and the layout of log 5. -/

set_option Elab.async false

namespace Sys2Proof.Tests

open Sys2Proof.Machine

/-! ### Small states -/

def host : State := State.reset
def chip : State := State.create { Config.instance0 with dir := .chip }
def chipAlarm (k : Nat) : State := State.create { Config.instance0 with dir := .chip, malThreshold := some k }
def chipSmall (n : Nat) : State := State.create { Config.instance0 with dir := .chip, rxCapacity := some n }
def noVr : State := State.create { Config.instance0 with cap := { Cap.example with vrSupported := false } }
def withLmax (l : Byte) : State := State.create { Config.instance0 with cfg := { Cfg.spec with lmax := l } }
def faulted : State := { State.reset with fault := some (.payloadTooLong 256) }
def receiving (s : State) (bytes : Bytes) : State := { s with rx := bytes }
def delivering : State := (poll (receiving chip [0x55, 0xAA, 0x53, 5, 0, 0, 3])).1

/-- What an answer returns, what it has sent and what it leaves in the decoder. -/
def returned : Answer → Option OpResult
  | .next t => t.result
  | _ => none
def sentBytes : Answer → Option Bytes
  | .next t => some t.tx
  | _ => none
def counts : Answer → Option (Bytes × BitVec 32 × BitVec 32)
  | .next t => some (t.rx, t.mal, t.drop)
  | _ => none
def faultAfter : Answer → Option FaultCode
  | .next t => t.fault
  | _ => none

/-! ### Well-formedness: each check refuses an ill-formed term -/

theorem test_broadcast_read_with_address_is_ill_formed : (Instr.encRead .broadcast 1 0).wellFormed = false := by decide
theorem test_broadcast_write_with_address_is_ill_formed : (Instr.encWrite .broadcast 1 0 0).wellFormed = false := by decide
theorem test_overlong_job_frame_is_ill_formed : (Instr.frameJob 0 (List.replicate 251 0)).wellFormed = false := by decide +kernel
theorem test_longest_job_frame_is_well_formed : (Instr.frameJob 0 (List.replicate 250 0)).wellFormed = true := by decide +kernel

/-! ### Decoding: a word of every row, written out -/

theorem test_decode_crc5 : decode .interface [0x00, 0x02, 0x53, 0x05] = .ok (.crc5 [0x53, 0x05]) := rfl
theorem test_decode_crc16 : decode .interface [0x01, 0x00] = .ok (.crc16 []) := rfl
theorem test_decode_encSetaddr : decode .interface [0x10, 0x04] = .ok (.encSetaddr 4) := rfl
theorem test_decode_encInactive : decode .interface [0x11] = .ok .encInactive := rfl
theorem test_decode_encRead_unicast : decode .interface [0x12, 0x00, 0x08, 0x58] = .ok (.encRead .unicast 0x08 0x58) := rfl
theorem test_decode_encRead_broadcast : decode .interface [0x12, 0x01, 0x58] = .ok (.encRead .broadcast 0 0x58) := rfl
theorem test_decode_encWrite_unicast :
    decode .interface [0x13, 0x00, 0x01, 0x3C, 0x12, 0x34, 0x56, 0x78] = .ok (.encWrite .unicast 1 0x3C 0x12345678) := rfl
theorem test_decode_encWrite_broadcast :
    decode .interface [0x13, 0x01, 0xA4, 0x90, 0x00, 0xFF, 0xFF] = .ok (.encWrite .broadcast 0 0xA4 0x9000FFFF) := rfl
-- 1000000 = 0x40 + 128 * (0x04 + 128 * 0x3D)
theorem test_decode_encBaud : decode .interface [0x14, 0xC0, 0x84, 0x3D] = .ok (.encBaud 1000000) := rfl
theorem test_decode_encJob : decode .interface [0x15, 0x18, 0x02, 0xAB, 0xCD, 0x00] = .ok (.encJob 0x18 [0xAB, 0xCD] none) := rfl
theorem test_decode_encJob_mask :
    decode .interface [0x15, 0x18, 0x01, 0xAB, 0x01, 0x1F, 0xFF, 0xE0, 0x00] = .ok (.encJob 0x18 [0xAB] (some 0x1FFFE000)) := rfl
theorem test_decode_encRreg :
    decode .interface [0x16, 0x04, 0x00, 0x13, 0x97, 0x18, 0x00] = .ok (.encRreg 4 0 0x13971800) := rfl
theorem test_decode_encRjob :
    decode .interface [0x17, 0x18, 0x04, 0xDE, 0xAD, 0xBE, 0xEF, 0x12, 0x34] = .ok (.encRjob 0x18 4 0xDEADBEEF 0x1234) := rfl
theorem test_decode_decPush : decode .interface [0x20, 0x03, 0x55, 0xAA, 0x53] = .ok (.decPush [0x55, 0xAA, 0x53]) := rfl
theorem test_decode_decStep : decode .interface [0x21] = .ok .decStep := rfl
theorem test_decode_decPoll : decode .interface [0x22] = .ok .decPoll := rfl
theorem test_decode_decParse : decode .interface [0x23, 0x01, 0x55] = .ok (.decParse [0x55]) := rfl
theorem test_decode_decReset : decode .interface [0x24] = .ok .decReset := rfl
theorem test_decode_decStatus : decode .interface [0x25] = .ok .decStatus := rfl
theorem test_decode_frameSetaddr : decode .wire [0x40, 0x04, 0x00] = .ok (.frameSetaddr 4) := rfl
theorem test_decode_frameWriteRegU :
    decode .wire [0x41, 0x01, 0x3C, 0x12, 0x34, 0x56, 0x78] = .ok (.frameWriteRegU 1 0x3C 0x12345678) := rfl
theorem test_decode_frameWriteRegB :
    decode .wire [0x51, 0x00, 0xA4, 0x90, 0x00, 0xFF, 0xFF] = .ok (.frameWriteRegB 0xA4 0x9000FFFF) := rfl
theorem test_decode_frameReadRegU : decode .wire [0x42, 0x08, 0x58] = .ok (.frameReadRegU 8 0x58) := rfl
theorem test_decode_frameReadRegB : decode .wire [0x52, 0x00, 0x58] = .ok (.frameReadRegB 0x58) := rfl
theorem test_decode_frameChainInactive : decode .wire [0x53, 0x00, 0x00] = .ok .frameChainInactive := rfl
theorem test_decode_frameJob : decode .wire [0x21, 0x02, 0x18, 0xAB, 0xCD] = .ok (.frameJob 0x18 [0xAB, 0xCD]) := rfl
theorem test_decode_frameRespReg :
    decode .wire [0x60, 0x04, 0x00, 0x13, 0x97, 0x18, 0x00] = .ok (.frameRespReg 4 0 0x13971800) := rfl
theorem test_decode_frameRespJob :
    decode .wire [0x80, 0x18, 0x04, 0xDE, 0xAD, 0xBE, 0xEF, 0x12, 0x34] = .ok (.frameRespJob 0x18 4 0xDEADBEEF 0x1234) := rfl

/-! ### Decoding: rejections by name -/

theorem test_reject_empty : decode .interface [] = .error .emptyRequest := rfl
theorem test_reject_unlisted_op : decode .interface [0x18] = .error (.unknownCode .interface 0x18) := rfl
theorem test_reject_reserved_header : decode .wire [0x43, 0, 0] = .error (.unknownCode .wire 0x43) := rfl
theorem test_reject_truncated : decode .interface [0x16, 0x04, 0x00, 0x13] = .error .truncated := rfl
theorem test_reject_trailing : decode .interface [0x11, 0x00] = .error .trailingBytes := rfl
theorem test_reject_mode : decode .interface [0x12, 0x02, 0x00] = .error (.badMode 2) := rfl
theorem test_reject_option : decode .interface [0x15, 0x00, 0x00, 0x02] = .error (.badOption 2) := rfl
theorem test_reject_padded_number : decode .interface [0x14, 0x80, 0x00] = .error .nonMinimalNumber := rfl
theorem test_reject_reserved_byte : decode .wire [0x53, 0x00, 0x01] = .error (.reservedByteNotZero 1) := rfl
theorem test_reject_overlong_job_frame : decode .wire [0x21, 0xFB, 0x01] = .error (.workTooLong 251) := rfl

/-! ### Table words and the step -/

theorem test_table_word_crc5 : decodeTableWord 8 0x00 = some (.crc5 []) := by decide +kernel
theorem test_table_word_respJob : decodeTableWord 8 0x80 = some (.frameRespJob 0 0 0 0) := by decide +kernel
theorem test_table_word_reserved : decodeTableWord 8 0x43 = none := by decide +kernel
-- P1 line 1, as the first step after reset
theorem test_step_runs_table_word : sentBytes (step (State.reset.withFetchWord 8 0x11)) = some [0x55, 0xAA, 0x53, 0x05, 0, 0, 0x03] := by
  decide +kernel

/-! ### The CRCs -/

-- V8, V14
theorem test_crc5_setaddr : returned (exec (.crc5 [0x40, 0x05, 0x04, 0x00]) host) = some (.crc5 0x03) := by decide +kernel
theorem test_crc5_digits :
    returned (exec (.crc5 [0x31, 0x32, 0x33, 0x34, 0x35, 0x36, 0x37, 0x38, 0x39]) host) = some (.crc5 0x0F) := by decide +kernel
-- V16, V20
theorem test_crc16_empty : returned (exec (.crc16 []) host) = some (.crc16 0xFFFF) := by decide +kernel
theorem test_crc16_digits :
    returned (exec (.crc16 [0x31, 0x32, 0x33, 0x34, 0x35, 0x36, 0x37, 0x38, 0x39]) host) = some (.crc16 0x29B1) := by
  decide +kernel

/-! ### The encoder -/

-- V26, V27
theorem test_setaddr_4 : sentBytes (exec (.encSetaddr 0x04) host) = some [0x55, 0xAA, 0x40, 0x05, 0x04, 0x00, 0x03] := by
  decide +kernel
theorem test_setaddr_255 : sentBytes (exec (.encSetaddr 0xFF) host) = some [0x55, 0xAA, 0x40, 0x05, 0xFF, 0x00, 0x03] := by
  decide +kernel
-- V28, V53
theorem test_inactive : sentBytes (exec .encInactive host) = some [0x55, 0xAA, 0x53, 0x05, 0x00, 0x00, 0x03] := by decide +kernel
theorem test_inactive_halted : exec .encInactive faulted = .fault .haltedBlock := rfl
-- V31, V29
theorem test_read_chip_0 : sentBytes (exec (.encRead .unicast 0x00 0x58) host) = some [0x55, 0xAA, 0x42, 0x05, 0x00, 0x58, 0x1E] := by
  decide +kernel
theorem test_read_broadcast : sentBytes (exec (.encRead .broadcast 0x07 0x00) host) = some [0x55, 0xAA, 0x52, 0x05, 0x00, 0x00, 0x0A] := by
  decide +kernel
-- V33, V34
theorem test_write_unicast : sentBytes (exec (.encWrite .unicast 0x01 0x3C 0xFFFFFFFF) host)
    = some [0x55, 0xAA, 0x41, 0x09, 0x01, 0x3C, 0xFF, 0xFF, 0xFF, 0xFF, 0x11] := by decide +kernel
theorem test_write_broadcast : sentBytes (exec (.encWrite .broadcast 0 0xA4 0x9000FFFF) host)
    = some [0x55, 0xAA, 0x51, 0x09, 0x00, 0xA4, 0x90, 0x00, 0xFF, 0xFF, 0x1C] := by decide +kernel
-- V35, V36
theorem test_baud : sentBytes (exec (.encBaud 1000000) host)
    = some [0x55, 0xAA, 0x51, 0x09, 0x00, 0x28, 0x11, 0x30, 0x02, 0x00, 0x03] := by decide +kernel
theorem test_baud_unsupported : exec (.encBaud 9600) host = .next { host with result := some (.error (.unsupportedCapability 0x14)) } :=
  rfl
-- V39, V46
theorem test_job_masked : sentBytes (exec (.encJob 0x18 [1, 2, 3, 4] (some 0x1FFFE000)) host)
    = some [0x55, 0xAA, 0x51, 0x09, 0x00, 0xA4, 0x1F, 0xFF, 0xE0, 0x00, 0x0C,
            0x55, 0xAA, 0x21, 0x09, 0x18, 0x01, 0x02, 0x03, 0x04, 0x64, 0xCF] := by decide +kernel
theorem test_job_overlong : (fun a => (faultAfter a, sentBytes a)) (exec (.encJob 0 (List.replicate 251 0) (some 1)) host)
    = (some (.payloadTooLong 256), some []) := by decide +kernel
-- V49, V47
theorem test_rreg : sentBytes (exec (.encRreg 0x01 0x58 0x00000001) host)
    = some [0xAA, 0x55, 0x60, 0x0A, 0x01, 0x58, 0x00, 0x00, 0x00, 0x01, 0x0D, 0x56] := by decide +kernel
-- V51
theorem test_rjob : sentBytes (exec (.encRjob 0x18 0x04 0xDEADBEEF 0x1234) host)
    = some [0xAA, 0x55, 0x80, 0x0C, 0x18, 0x04, 0xDE, 0xAD, 0xBE, 0xEF, 0x12, 0x34, 0xB1, 0xF1] := by decide +kernel

/-! ### The decoder -/

-- P3 lines 2 and 4
theorem test_push : counts (exec (.decPush [0xAA, 0x51]) (receiving chip [0x55])) = some ([0x55, 0xAA, 0x51], 0, 0) := by decide
theorem test_push_over_capacity : exec (.decPush [0]) (receiving (chipSmall 1) [0x55]) = .fault .pushOverCapacity := rfl
-- V60, the last byte of V67's frame
theorem test_step_rejects_reserved : counts (exec .decStep (receiving chip [0x55, 0xAA, 0x00, 0x05, 0x00, 0x00, 0x1B]))
    = some ([0xAA, 0x00, 0x05, 0x00, 0x00, 0x1B], 1, 1) := by decide
theorem test_step_accepts : returned (exec .decStep (receiving host [0xAA, 0x55, 0x60, 0x0A, 0x04, 0x00, 0x13, 0x97, 0x18, 0x00, 0xBE, 0x61]))
    = some (.scan (.frame [0xAA, 0x55, 0x60, 0x0A, 0x04, 0x00, 0x13, 0x97, 0x18, 0x00, 0xBE, 0x61])) := by decide +kernel
-- V70, V71
theorem test_poll_resynchronises :
    (fun a => (returned a, counts a)) (exec .decPoll (receiving chip [0x55, 0xAA, 0x53, 5, 0, 0, 4, 0x55, 0xAA, 0x40, 5, 4, 0, 3]))
    = (some (.event (.frame [0x55, 0xAA, 0x40, 5, 4, 0, 3] (.cmd (.setChipAddress 4)))), some ([], 0, 7)) := by decide +kernel
theorem test_poll_alarms :
    (fun a => (returned a, counts a)) (exec .decPoll (receiving (chipAlarm 1) [0x55, 0xAA, 0x53, 5, 0, 0, 4]))
    = (some (.event (.alarm 1)), some ([0xAA, 0x53, 5, 0, 0, 4], 1, 1)) := by decide +kernel
-- V85, and the same frame before a decoder has delivered it (30_encoding.md R91, 70_reset_and_hazards.md R239)
theorem test_parse : returned (exec (.decParse [0x55, 0xAA, 0x51, 0x09, 0x00, 0xA4, 0x90, 0x00, 0xFF, 0xFF, 0x1C])
      (poll (receiving chip [0x55, 0xAA, 0x51, 0x09, 0x00, 0xA4, 0x90, 0x00, 0xFF, 0xFF, 0x1C])).1)
    = some (.parsed (.cmd (.writeRegister .broadcast 0 0xA4 0x9000FFFF))) := by decide +kernel
theorem test_parse_of_undelivered_frame :
    exec (.decParse [0x55, 0xAA, 0x51, 0x09, 0x00, 0xA4, 0x90, 0x00, 0xFF, 0xFF, 0x1C]) chip = .refused .parseOfUndeliveredBytes := rfl
-- V82, V84
theorem test_reset : exec .decReset { chip with rx := [0x55, 0xAA, 0x21, 0xFF, 0x00], mal := 2, drop := 3, cursor := 3 }
    = .next { chip with result := some .done } := rfl
theorem test_status_halted : returned (exec .decStatus faulted) = some (.status 0 0 0 (some (.payloadTooLong 256))) := by decide

/-! ### The wire rows -/

-- V26's, V33's, V34's, V31's, V29's, V28's, V38's, V47's and V51's frames
theorem test_frame_setaddr : sentBytes (exec (.frameSetaddr 4) host) = some [0x55, 0xAA, 0x40, 5, 4, 0, 3] := by decide +kernel
theorem test_frame_write_u : sentBytes (exec (.frameWriteRegU 1 0x3C 0xFFFFFFFF) host)
    = some [0x55, 0xAA, 0x41, 9, 1, 0x3C, 0xFF, 0xFF, 0xFF, 0xFF, 0x11] := by decide +kernel
theorem test_frame_write_b : sentBytes (exec (.frameWriteRegB 0xA4 0x9000FFFF) host)
    = some [0x55, 0xAA, 0x51, 9, 0, 0xA4, 0x90, 0, 0xFF, 0xFF, 0x1C] := by decide +kernel
theorem test_frame_read_u : sentBytes (exec (.frameReadRegU 0 0x58) host) = some [0x55, 0xAA, 0x42, 5, 0, 0x58, 0x1E] := by decide +kernel
theorem test_frame_read_b : sentBytes (exec (.frameReadRegB 0) host) = some [0x55, 0xAA, 0x52, 5, 0, 0, 0x0A] := by decide +kernel
theorem test_frame_inactive : sentBytes (exec .frameChainInactive host) = some [0x55, 0xAA, 0x53, 5, 0, 0, 3] := by decide +kernel
theorem test_frame_job : sentBytes (exec (.frameJob 0x18 [1, 2, 3, 4]) host)
    = some [0x55, 0xAA, 0x21, 9, 0x18, 1, 2, 3, 4, 0x64, 0xCF] := by decide +kernel
theorem test_frame_resp_reg : sentBytes (exec (.frameRespReg 4 0 0x13971800) host)
    = some [0xAA, 0x55, 0x60, 0x0A, 4, 0, 0x13, 0x97, 0x18, 0, 0xBE, 0x61] := by decide +kernel
theorem test_frame_resp_job : sentBytes (exec (.frameRespJob 0x18 4 0xDEADBEEF 0x1234) host)
    = some [0xAA, 0x55, 0x80, 0x0C, 0x18, 4, 0xDE, 0xAD, 0xBE, 0xEF, 0x12, 0x34, 0xB1, 0xF1] := by decide +kernel

/-! ### The textual form (30_encoding.md R92) -/

theorem test_assemble_write : assemble "enc.write b 0xA4, 0x9000FFFF".toList = some (.encWrite .broadcast 0 0xA4 0x9000FFFF) := by
  decide +kernel
theorem test_assemble_ill_typed : assemble "enc.setaddr 256".toList = none := by decide +kernel

/-! ### Witnesses: the hypotheses of each statement can be met, each clause of them -/

theorem witness_Crc5ReturnsRegisterAfterAllBits : host.fault = none ∧ faulted.fault = some (.payloadTooLong 256) := ⟨rfl, rfl⟩
theorem witness_Crc16ReturnsRegisterAfterAllBits : host.fault = none ∧ faulted.fault = some (.payloadTooLong 256) := ⟨rfl, rfl⟩
theorem witness_Crc5IsPolynomialRemainder : host.fault = none ∧ host.inst.cfg.crc5XorOut = 0 := ⟨rfl, rfl⟩
theorem witness_Crc16IsPolynomialRemainder : host.fault = none ∧ host.inst.cfg.crc16XorOut = 0 := ⟨rfl, rfl⟩
-- V23
theorem witness_Crc16ResidueIsZero : Cfg.spec.crc16XorOut = 0 ∧ Cfg.spec.crc16Poly.getLsbD 0 = true ∧
    crc16 Cfg.spec ([0x21, 0x09, 0x18, 0x01, 0x02, 0x03, 0x04] ++ [0x64, 0xCF]) = 0 := by decide +kernel
theorem witness_CrcOfXorIsXorOfCrcs : ([0x12, 0x34] : Bytes).length = ([0xF0, 0x0F] : Bytes).length := rfl
theorem witness_EncSetaddrSendsItsFrame : host.fault = none ∧ faulted.fault = some (.payloadTooLong 256) := ⟨rfl, rfl⟩
theorem witness_EncInactiveSendsItsFrame : host.fault = none ∧ faulted.fault = some (.payloadTooLong 256) := ⟨rfl, rfl⟩
theorem witness_EncReadSendsItsFrame : host.fault = none ∧ faulted.fault = some (.payloadTooLong 256) := ⟨rfl, rfl⟩
theorem witness_EncWriteSendsItsFrame : host.fault = none ∧ faulted.fault = some (.payloadTooLong 256) := ⟨rfl, rfl⟩
theorem witness_EncBaudFollowsItsRule : host.fault = none ∧ faulted.fault = some (.payloadTooLong 256) ∧
    baudWriteOf host.inst.cap 1000000 = some ⟨0x28, (0x11 : Byte) ++ (0x30 : Byte) ++ (0x02 : Byte) ++ (0x00 : Byte)⟩ ∧
    baudWriteOf host.inst.cap 9600 = none := by decide
theorem witness_EncJobFollowsItsRule_stops : faulted.fault = some (.payloadTooLong 256) ∧ noVr.fault = none ∧
    noVr.inst.cap.vrSupported = false ∧ host.inst.cap.vrSupported = true ∧
    host.inst.cfg.lmax.toNat < 5 + (List.replicate 251 (0 : Byte)).length := by decide +kernel
theorem witness_EncJobFollowsItsRule : host.fault = none ∧ host.inst.cap.vrSupported = true ∧
    vrWriteOf host.inst.cap 0x1FFFE000 = ⟨0xA4, (0x1F : Byte) ++ (0xFF : Byte) ++ (0xE0 : Byte) ++ (0x00 : Byte)⟩ ∧
    5 + (List.replicate 250 (0 : Byte)).length ≤ host.inst.cfg.lmax.toNat := by decide +kernel
theorem witness_EncRregSendsItsFrame : 10 ≤ (withLmax 10).inst.cfg.lmax.toNat ∧ (withLmax 10).fault = none ∧
    10 ≤ faulted.inst.cfg.lmax.toNat ∧ faulted.fault = some (.payloadTooLong 256) := by decide
theorem witness_EncRjobSendsItsFrame : 12 ≤ (withLmax 12).inst.cfg.lmax.toNat ∧ (withLmax 12).fault = none ∧
    12 ≤ faulted.inst.cfg.lmax.toNat ∧ faulted.fault = some (.payloadTooLong 256) := by decide
theorem witness_ResponseBeyondLmaxFaults : (withLmax 9).fault = none ∧ (withLmax 9).inst.cfg.lmax.toNat < 10 ∧
    (withLmax 11).fault = none ∧ (withLmax 11).inst.cfg.lmax.toNat < 12 := by decide
theorem witness_ControlFrameRowsSendTheirFrame : host.fault = none := rfl
theorem witness_LongFrameRowsSendTheirFrame : host.fault = none ∧
    5 + (List.replicate 250 (0 : Byte)).length ≤ host.inst.cfg.lmax.toNat ∧
    host.inst.cfg.lmax.toNat < 5 + (List.replicate 251 (0 : Byte)).length ∧
    10 ≤ host.inst.cfg.lmax.toNat ∧ 12 ≤ host.inst.cfg.lmax.toNat := by decide +kernel
theorem witness_EncoderFrame : isEncoder (.encSetaddr 4) = true ∧ ∃ t, exec (.encSetaddr 4) host = .next t := ⟨rfl, _, rfl⟩
theorem witness_EncoderOutputDependsOnOperandsOnly : isEncoder .encInactive = true ∧
    host.fault = (receiving chip [0x55]).fault ∧ host.inst.cfg = (receiving chip [0x55]).inst.cfg ∧
    host.inst.cap = (receiving chip [0x55]).inst.cap ∧ ∃ t, exec .encInactive host = .next t := ⟨rfl, rfl, rfl, rfl, _, rfl⟩
theorem witness_CommandEncodersAreInjective : ∃ (t u : State) (out : Bytes),
    (instrOfCommand (.setChipAddress 4)).wellFormed = true ∧
    (∀ rate, Command.setChipAddress 4 ≠ .setBaudRate rate) ∧
    (∀ j w m, Command.setChipAddress 4 ≠ .submitJob j w (some m)) ∧ exec (instrOfCommand (.setChipAddress 4)) host = .next t ∧
    exec (instrOfCommand (.setChipAddress 4)) host = .next u ∧ t.result = some (.bytes out) ∧ u.result = some (.bytes out) ∧
    baudWriteOf host.inst.cap 1000000 = some ⟨0x28, 0x11300200⟩ :=
  ⟨_, _, _, rfl, by simp, by simp, rfl, rfl, rfl, rfl, rfl⟩
theorem witness_DecPushFollowsItsRule : (chipSmall 1).fault = none ∧
    (∀ n, (chipSmall 1).inst.rxCapacity = some n → (chipSmall 1).rx.length + ([0x55] : Bytes).length ≤ n) ∧
    (chipSmall 1).inst.rxCapacity = some 1 ∧ 1 < (chipSmall 1).rx.length + ([0x55, 0xAA] : Bytes).length ∧
    faulted.fault = some (.payloadTooLong 256) := by
  refine ⟨rfl, ?_, rfl, by decide, rfl⟩
  rintro _ ⟨rfl⟩
  decide
theorem witness_DecStepNeedsMore : chip.fault = none ∧ chip.rx = [] ∧
    (receiving chip [0x55]).rx = [(rxPreamble chip.inst).b0] ∧
    (receiving chip [0x55, 0xAA, 0x53]).rx = (rxPreamble chip.inst).b0 :: (rxPreamble chip.inst).b1 :: [0x53] ∧
    (receiving chip [0x55, 0xAA, 0x53, 5, 0, 0]).rx = (rxPreamble chip.inst).b0 :: (rxPreamble chip.inst).b1 :: 0x53 :: 5 :: [0, 0] ∧
    acceptedClass chip.inst.dir 0x53 = some .c5 ∧ minL .c5 ≤ (5 : Byte).toNat ∧
    (receiving chip [0x55, 0xAA, 0x53, 5, 0, 0]).rx.length < 2 + (5 : Byte).toNat := by decide
theorem witness_DecStepNeedsMore_push : ∀ n, (chipSmall 2).inst.rxCapacity = some n →
    (receiving (chipSmall 2) [0x55]).rx.length + ([0xAA] : Bytes).length ≤ n := by
  rintro _ ⟨rfl⟩
  decide
theorem witness_DecStepDiscards : chip.fault = none ∧ (0xAA : Byte) ≠ (rxPreamble chip.inst).b0 ∧
    (0x55 : Byte) = (rxPreamble chip.inst).b0 ∧ (0x00 : Byte) ≠ (rxPreamble chip.inst).b1 := by decide
theorem witness_DecStepRejects : chip.fault = none ∧ acceptedClass chip.inst.dir 0x60 = none ∧
    acceptedClass chip.inst.dir 0x40 = some .c5 ∧ (2 : Byte).toNat < minL .c5 ∧
    acceptedClass chip.inst.dir 0x53 = some .c5 ∧ 2 + (5 : Byte).toNat ≤ ([0x55, 0xAA, 0x53, 5, 0, 0, 4] : Bytes).length ∧
    valid chip.inst.cfg .c5 (([0x55, 0xAA, 0x53, 5, 0, 0, 4] : Bytes).take 7) = false := by decide +kernel
theorem witness_DecStepAccepts : chip.fault = none ∧ acceptedFrame chip.inst [0x55, 0xAA, 0x53, 5, 0, 0, 3] = true ∧
    acceptedFrame host.inst [0xAA, 0x55, 0x80, 0x0C, 0, 0, 0, 0, 0, 0, 0, 0, 0xB0, 0x1D] = true := by decide +kernel
theorem witness_AlarmExactlyAtThreshold : ∃ t, exec .decStep (receiving (chipAlarm 1) [0x55, 0xAA, 0x00, 0x05]) = .next t ∧
    t.result = some (.scan (.alarm 1)) := ⟨_, rfl, by decide⟩
theorem witness_DecPollRepeatsDecStep : chip.fault = none ∧ faulted.fault = some (.payloadTooLong 256) := ⟨rfl, rfl⟩
theorem witness_DecPollTerminates : (receiving chip [0x00, 0x55]).fault = none := rfl
theorem witness_NeedMoreIsStable : ∃ t, exec .decPoll (receiving chip [0x55, 0xAA, 0x53]) = .next t ∧
    t.result = some (.event .needMore) := ⟨_, rfl, by decide⟩
theorem witness_OnlyValidFramesAreDelivered : ∃ t, exec .decPoll (receiving chip [0x00, 0x55, 0xAA, 0x53, 5, 0, 0, 3]) = .next t ∧
    t.result = some (.event (.frame [0x55, 0xAA, 0x53, 5, 0, 0, 3] (.cmd .chainInactive))) := ⟨_, rfl, by decide +kernel⟩
theorem witness_DeliveredFramesAreRecorded : ∃ t, exec .decPoll (receiving chip [0x00, 0x55, 0xAA, 0x53, 5, 0, 0, 3]) = .next t ∧
    t.result = some (.event (.frame [0x55, 0xAA, 0x53, 5, 0, 0, 3] (.cmd .chainInactive))) ∧
    t.delivered = [[0x55, 0xAA, 0x53, 5, 0, 0, 3]] := ⟨_, rfl, by decide +kernel, by decide +kernel⟩
theorem witness_DeliveredFramesAreRecorded_kept : returned (exec .decReset delivering) = some .done ∧ delivering.delivered ≠ [] := by
  decide +kernel
theorem witness_DecParseReturnsTheParse : delivering.fault = none ∧ [0x55, 0xAA, 0x53, 5, 0, 0, 3] ∈ delivering.delivered := by
  decide +kernel
theorem witness_DecParseOfOtherBytesIsRefused : chip.fault = none ∧ [0x55, 0xAA, 0x53, 5, 0, 0, 3] ∉ chip.delivered ∧
    delivering.fault = none ∧ [0x55, 0xAA, 0x40, 5, 4, 0, 3] ∉ delivering.delivered := by
  decide +kernel
theorem witness_ParseOfLongFrames : 5 + (List.replicate 250 (0 : Byte)).length ≤ 255 := by decide +kernel
theorem witness_ParseOfUnnamedFramesIsUnrecognized :
    ¬ (byteAt [0x55, 0xAA, 0x43, 5, 0, 0, 7] 2 ∈ ([0x40, 0x53, 0x42, 0x52] : Bytes) ∧ lengthOf [0x55, 0xAA, 0x43, 5, 0, 0, 7] = 5) ∧
    ¬ (byteAt [0x55, 0xAA, 0x43, 5, 0, 0, 7] 2 ∈ ([0x41, 0x51] : Bytes) ∧ lengthOf [0x55, 0xAA, 0x43, 5, 0, 0, 7] = 9) ∧
    ¬ (byteAt [0x55, 0xAA, 0x43, 5, 0, 0, 7] 2 = 0x21 ∧ 5 ≤ lengthOf [0x55, 0xAA, 0x43, 5, 0, 0, 7]) ∧
    ¬ (byteAt [0x55, 0xAA, 0x43, 5, 0, 0, 7] 2 = 0x60 ∧ lengthOf [0x55, 0xAA, 0x43, 5, 0, 0, 7] = 10) ∧
    ¬ (byteAt [0x55, 0xAA, 0x43, 5, 0, 0, 7] 2 = 0x80 ∧ lengthOf [0x55, 0xAA, 0x43, 5, 0, 0, 7] = 12) := by decide
theorem witness_DecResetClearsTheDecoder : host.fault = none ∧ faulted.fault = some (.payloadTooLong 256) := ⟨rfl, rfl⟩
theorem witness_FaultedBlockRunsOnlyDecStatus : faulted.fault = some (.payloadTooLong 256) ∧ Instr.decReset ≠ .decStatus := by decide
theorem witness_FaultedStateIsNeverFinal : faulted.fault = some (.payloadTooLong 256) ∧ faulted.requests = [] ∧
    ∃ t, Sys2Proof.core.run 1 { faulted with requests := [requestOf .decStatus] } = .next t ∧ t.requests = [] :=
  ⟨rfl, rfl, _, rfl, rfl⟩
-- a live run does end: P1 line 1
theorem test_observation : Observation (fun t => t.tx = [0x55, 0xAA, 0x53, 0x05, 0, 0, 0x03]) { host with requests := [requestOf .encInactive] } :=
  ⟨1, _, rfl, ⟨rfl, rfl⟩, by decide +kernel⟩
theorem witness_FaultIsStickyAndOnlyEncodersSetIt : ∃ t u, exec .decStatus faulted = .next t ∧ faulted.fault = some (.payloadTooLong 256) ∧
    exec (.encRreg 0 0 0) (withLmax 9) = .next u ∧ (withLmax 9).fault = none ∧ u.fault = some (.payloadTooLong 10) :=
  ⟨_, _, rfl, rfl, rfl, rfl, rfl⟩
theorem witness_ErrorsLeaveNoEffect : ∃ t u, exec (.encBaud 9600) host = .next t ∧
    t.result = some (.error (.unsupportedCapability 0x14)) ∧ exec (.encJob 0 [] (some 1)) noVr = .next u ∧
    u.result = some (.error (.unsupportedCapability 0x15)) := ⟨_, _, rfl, rfl, rfl, rfl⟩
theorem witness_WhatEachUnitLeavesAlone : ∃ t, exec (.crc5 [1]) host = .next t := ⟨_, rfl⟩
theorem witness_StepRunsTheFirstRequest : ∃ i, { host with requests := [requestOf .decStep] }.requests = requestOf .decStep :: [] ∧
    decode (requestOf .decStep).space (requestOf .decStep).bytes = .ok i := ⟨.decStep, rfl, rfl⟩
theorem witness_StepIdlesOrRefusesByName : host.fault = none ∧ host.requests = [] ∧
    { host with requests := [⟨.wire, [0x43]⟩] }.requests = ⟨.wire, [0x43]⟩ :: [] ∧
    decode .wire [0x43] = .error (.unknownCode .wire 0x43) := ⟨rfl, rfl, rfl, rfl⟩
theorem witness_StepKeepsInvariant : Inv (receiving chip [0x00]) ∧
    ∃ t, step { receiving chip [0x00] with requests := [requestOf .decStep] } = .next t := by
  refine ⟨?_, _, rfl⟩
  constructor <;> simp [receiving, chip, State.create, Config.instance0, fitsCapacity]
theorem witness_DecodeAfterEncode : (Instr.encRead .broadcast 0 0x58).wellFormed = true := rfl
theorem witness_EncodeAfterDecode : decode .wire [0x42, 0x08, 0x58] = .ok (.frameReadRegU 8 0x58) := rfl
theorem witness_RoundTrip_command : ∃ e' out, exec (instrOfCommand (.setChipAddress 4)) host = .next e' ∧
    e'.result = some (.bytes out) ∧ sentAs host.inst.cap (.setChipAddress 4) = some [.setChipAddress 4] ∧
    chip.fault = none ∧ chip.inst.dir = .chip ∧ chip.inst.cfg = host.inst.cfg ∧ chip.rx = [] ∧
    ∀ n, chip.inst.rxCapacity = some n → out.length ≤ n :=
  ⟨_, _, rfl, rfl, rfl, rfl, rfl, rfl, rfl, (fun _ h => nomatch h)⟩
theorem witness_RoundTrip_response : ∃ e' out, exec (instrOfResponse (.regResponse 4 0 7)) chip = .next e' ∧
    e'.result = some (.bytes out) ∧ host.fault = none ∧ host.inst.dir = .host ∧ host.inst.cfg = chip.inst.cfg ∧
    host.rx = [] ∧ ∀ n, host.inst.rxCapacity = some n → out.length ≤ n :=
  ⟨_, _, rfl, rfl, rfl, rfl, rfl, rfl, (fun _ h => nomatch h)⟩
theorem witness_Resynchronisation : chip.fault = none ∧ chip.rx = [] ∧ chip.mal = 0 ∧ chip.drop = 0 ∧
    (∀ n, chip.inst.rxCapacity = some n → (([0x55] : Bytes) ++ [0x55, 0xAA, 0x40, 5, 4, 0, 3]).length ≤ n) ∧
    acceptedFrame chip.inst [0x55, 0xAA, 0x40, 5, 4, 0, 3] = true ∧
    ∀ i, i < ([0x55] : Bytes).length → ¬ LiveCandidate chip.inst ([0x55] ++ [0x55, 0xAA, 0x40, 5, 4, 0, 3]) i := by
  refine ⟨rfl, rfl, rfl, rfl, (fun _ h => nomatch h), by decide +kernel, ?_⟩
  intro i hi h
  obtain rfl : i = 0 := by simpa using hi
  exact absurd h.2.2.1 (by decide)
theorem witness_CandidateIsDecidedInBoundedBytes : chip.fault = none ∧ 257 ≤ (List.replicate 257 (0x55 : Byte)).length ∧
    4 ≤ ([0x55, 0xAA, 0x53, 5, 0, 0, 4] : Bytes).length ∧
    2 + lengthOf [0x55, 0xAA, 0x53, 5, 0, 0, 4] ≤ ([0x55, 0xAA, 0x53, 5, 0, 0, 4] : Bytes).length ∧
    ∃ t, exec .decStep (receiving chip [0x00]) = .next t ∧ t.result = some (.scan .continued) := by
  refine ⟨rfl, by decide +kernel, by decide, by decide, _, rfl, by decide⟩
theorem witness_ChunkingInvariance : (chipSmall 8).fault = none ∧
    ([[0x00], [0x55], [0xAA, 0x53, 5, 0], [0, 3, 0x55]] : List Bytes).flatten
      = ([[0x00, 0x55, 0xAA, 0x53, 5, 0, 0], [3], [0x55]] : List Bytes).flatten ∧
    feedFits [[0x00], [0x55], [0xAA, 0x53, 5, 0], [0, 3, 0x55]] (chipSmall 8) = true ∧
    feedFits [[0x00, 0x55, 0xAA, 0x53, 5, 0, 0], [3], [0x55]] (chipSmall 8) = true ∧
    feedFits [[0x00, 0x55, 0xAA, 0x53, 5, 0, 0, 3, 0x55]] (chipSmall 8) = false := by decide +kernel
theorem witness_ChunkingInvariance_whole : (chipSmall 7).fault = none ∧ (∀ n, (chipSmall 7).inst.rxCapacity = some n →
    (chipSmall 7).rx.length + ([[0x55], [0xAA, 0x53, 5, 0], [0, 3]] : List Bytes).flatten.length ≤ n) := by
  refine ⟨rfl, ?_⟩
  rintro _ ⟨rfl⟩
  decide
theorem witness_FramesComeInOrder : (receiving chip [0x55, 0xAA, 0x53, 5, 0, 0, 3]).fault = none := rfl

end Sys2Proof.Tests
end

/-! PROOFS. The family 10_state.md: what a faulted block can do (R29), what each unit leaves alone (R20, R21, R28), and the
invariant of the state (R20, R21, R26, R29). All of it rests on one inversion of `exec`: `exec_effect`. -/

namespace Sys2Proof.Machine

/-! ### The faulted block (10_state.md R29) -/

theorem execEncJob_eq_whenLive (jobId : Byte) (work : Bytes) (mask : Option (BitVec 32)) (s : State) :
    ∃ k, execEncJob jobId work mask s = whenLive s k := by
  cases mask with
  | none => exact ⟨_, rfl⟩
  | some m =>
    simp only [execEncJob]
    split <;> exact ⟨_, rfl⟩

/-- Every operation but DEC_STATUS starts with the fault prelude. -/
theorem exec_eq_whenLive {i : Instr} (hi : i ≠ .decStatus) (s : State) : ∃ k, exec i s = whenLive s k := by
  cases i with
  | decStatus => exact absurd rfl hi
  | encJob jobId work mask => exact execEncJob_eq_whenLive jobId work mask s
  | _ => exact ⟨_, rfl⟩

theorem exec_faulted {i : Instr} {s : State} {f : FaultCode} (hi : i ≠ .decStatus) (hf : s.fault = some f) :
    exec i s = .fault .haltedBlock := by
  obtain ⟨k, hk⟩ := exec_eq_whenLive hi s
  rw [hk, whenLive_faulted hf]

theorem exec_decStatus (s : State) :
    exec .decStatus s = .next (returning s (.status s.rx.length s.mal s.drop s.fault)) := rfl

/-- The one next state a faulted block has is what DEC_STATUS answers. -/
theorem exec_faulted_eq_next {i : Instr} {s t : State} {f : FaultCode} (hf : s.fault = some f)
    (h : exec i s = .next t) : t = returning s (.status s.rx.length s.mal s.drop s.fault) := by
  by_cases hi : i = .decStatus
  · subst hi
    exact (Host.Outcome.next.inj h).symm
  · simp [exec_faulted hi hf] at h

/-- Settles O40: the fault prelude stops every operation but DEC_STATUS. -/
theorem faultedBlockRunsOnlyDecStatus : Obligations.FaultedBlockRunsOnlyDecStatus := by
  intro s f hf
  refine ⟨fun i hi => exec_faulted hi hf, ?_⟩
  rw [exec_decStatus, hf]
  rfl

/-! ### One step of the machine -/

/-- What a step that answers a next state has done: nothing, in a live block with no request, or the first request's
operation. -/
theorem step_eq_next {s t : State} :
    step s = .next t ↔
      (s.requests = [] ∧ s.fault = none ∧ t = s) ∨
      (∃ r rest i, s.requests = r :: rest ∧ decode r.space r.bytes = .ok i ∧
        exec i { s with requests := rest } = .next t) := by
  unfold step
  cases hreq : s.requests with
  | nil => simp [whenLive_eq_next, @eq_comm _ s t]
  | cons r rest => cases hdec : decode r.space r.bytes <;> simp [hdec]

theorem step_keeps_fault {s t : State} {f : FaultCode} (hf : s.fault = some f) (h : step s = .next t) :
    t.fault = some f := by
  rcases step_eq_next.1 h with ⟨_, hlive, _⟩ | ⟨r, rest, i, _, _, hexec⟩
  · simp [hlive] at hf
  · rw [exec_faulted_eq_next (s := { s with requests := rest }) hf hexec]
    exact hf

/-- A run of `n + 1` steps that does not stop is a step and a run of `n` steps. -/
theorem run_succ_eq_next {M : Host.Core} {n : Nat} {s t : M.State} :
    M.run (n + 1) s = .next t ↔ ∃ u, M.step s = .next u ∧ M.run n u = .next t := by
  simp only [Host.Core.run]
  cases M.step s <;> simp

theorem run_keeps_fault {n : Nat} {s t : State} {f : FaultCode} (hf : s.fault = some f)
    (h : core.run n s = .next t) : t.fault = some f := by
  induction n generalizing s with
  | zero =>
    obtain rfl : s = t := Host.Outcome.next.inj h
    exact hf
  | succ n ih =>
    obtain ⟨u, hstep, hrun⟩ := run_succ_eq_next.1 h
    exact ih (step_keeps_fault hf hstep) hrun

theorem not_final_of_fault {s : State} {f : FaultCode} (hf : s.fault = some f) : ¬ Final s := by
  rintro ⟨_, hlive⟩
  simp [hlive] at hf

/-- Settles O41, by induction on the length of the run: the fault outlives every step. -/
theorem faultedStateIsNeverFinal : Obligations.FaultedStateIsNeverFinal := by
  intro s f hf
  refine ⟨fun hreq => ?_, fun n t hrun => ?_, ?_⟩
  · simp [step, hreq, whenLive_faulted hf]
  · have hft := run_keeps_fault hf hrun
    exact ⟨hft, not_final_of_fault hft⟩
  · rintro P ⟨n, t, hrun, hfinal, _⟩
    exact not_final_of_fault (run_keeps_fault hf hrun) hfinal

/-! ### What an operation can do, said once -/

/-- What an operation that has a step does to the state. The encoder operations share three effects; every other
operation has one of its own. -/
inductive Effect (s : State) : Instr → State → Prop where
  | crc5 (data : Bytes) : Effect s (.crc5 data) (returning s (.crc5 (crc5 s.inst.cfg data)))
  | crc16 (data : Bytes) : Effect s (.crc16 data) (returning s (.crc16 (crc16 s.inst.cfg data)))
  | sends {i : Instr} (hi : isEncoder i = true) (out : Bytes) : Effect s i (emit s out)
  | raises {i : Instr} (hi : isEncoder i = true) (e : ErrorCode) : Effect s i (raiseError s e)
  | faults {i : Instr} (hi : isEncoder i = true) {n : Nat} (hn : s.inst.cfg.lmax.toNat < n) :
      Effect s i (takeFault s (.payloadTooLong n))
  | pushes {data : Bytes} (hfits : fitsCapacity s.inst.rxCapacity (s.rx.length + data.length) = true) :
      Effect s (.decPush data) (returning (pushBytes s data) .done)
  | scans : Effect s .decStep (returning (scanStep s).1 (.scan (scanStep s).2))
  | polls : Effect s .decPoll (returning (poll s).1 (.event (poll s).2))
  | parses {f : Bytes} (hf : f ∈ s.delivered) : Effect s (.decParse f) (returning s (.parsed (parse f)))
  | resets : Effect s .decReset (returning (clearDecoder s) .done)
  | status : Effect s .decStatus (returning s (.status s.rx.length s.mal s.drop s.fault))

theorem eq_of_whenLive_next {s t u : State} (h : whenLive s (.next u) = .next t) : t = u :=
  (Host.Outcome.next.inj (whenLive_eq_next.1 h).2).symm

theorem encodeControl_effect {i : Instr} {t : Byte} {p : Bytes} {s u : State} (hi : isEncoder i = true)
    (h : encodeControl t p s = .next u) : Effect s i u := by
  obtain ⟨_, rfl⟩ := encodeControl_eq_next.1 h
  exact .sends hi _

theorem encodeLong_effect {i : Instr} {before : Bytes} {pre : Preamble} {t : Byte} {p : Bytes} {s u : State}
    (hi : isEncoder i = true) (h : encodeLong before pre t p s = .next u) : Effect s i u := by
  obtain ⟨_, ⟨out, _, rfl⟩ | ⟨f, hf, rfl⟩⟩ := encodeLong_eq_next.1 h
  · exact .sends hi _
  · obtain ⟨rfl, hlong⟩ := frameC16_error hf
    exact .faults hi hlong

theorem execEncBaud_effect {rate : Nat} {s u : State} (h : execEncBaud rate s = .next u) :
    Effect s (.encBaud rate) u := by
  obtain rfl := eq_of_whenLive_next h
  cases baudWriteOf s.inst.cap rate with
  | none => exact .raises rfl _
  | some w => exact .sends rfl _

theorem execEncJob_effect {jobId : Byte} {work : Bytes} {mask : Option (BitVec 32)} {s u : State}
    (h : execEncJob jobId work mask s = .next u) : Effect s (.encJob jobId work mask) u := by
  cases mask with
  | none => exact encodeLong_effect rfl h
  | some m =>
    simp only [execEncJob] at h
    split at h
    · exact encodeLong_effect rfl h
    · obtain rfl := eq_of_whenLive_next h
      exact .raises rfl _

/-- The inversion of `exec`: a next state is one of the effects above. -/
theorem exec_effect {i : Instr} {s t : State} (h : exec i s = .next t) : Effect s i t := by
  cases i with
  | encBaud => exact execEncBaud_effect h
  | encJob => exact execEncJob_effect h
  | encSetaddr | encInactive | encRead | encWrite | frameSetaddr | frameWriteRegU | frameWriteRegB | frameReadRegU
  | frameReadRegB | frameChainInactive => exact encodeControl_effect rfl h
  | encRreg | encRjob | frameJob | frameRespReg | frameRespJob => exact encodeLong_effect rfl h
  | decStatus =>
    obtain rfl := Host.Outcome.next.inj h
    exact .status
  | crc5 data =>
    obtain rfl := eq_of_whenLive_next h
    exact .crc5 data
  | crc16 data =>
    obtain rfl := eq_of_whenLive_next h
    exact .crc16 data
  | decStep =>
    obtain rfl := eq_of_whenLive_next h
    exact .scans
  | decPoll =>
    obtain rfl := eq_of_whenLive_next h
    exact .polls
  | decReset =>
    obtain rfl := eq_of_whenLive_next h
    exact .resets
  | decPush data =>
    obtain ⟨_, h⟩ := whenLive_eq_next.1 h
    split at h
    · obtain rfl := Host.Outcome.next.inj h
      exact .pushes ‹_›
    · cases h
  | decParse f =>
    obtain ⟨_, h⟩ := whenLive_eq_next.1 h
    split at h
    · obtain rfl := Host.Outcome.next.inj h
      exact .parses ‹_›
    · cases h

/-! ### The frame of a scan and of a poll -/

/-- What is the same, and what can only shrink or grow, between a state and a later one of the same scan. -/
structure ScanFrame (s t : State) : Prop where
  inst : t.inst = s.inst
  requests : t.requests = s.requests
  fault : t.fault = s.fault
  tx : t.tx = s.tx
  rx_length_le : t.rx.length ≤ s.rx.length
  cursor_le : s.cursor ≤ t.cursor

theorem ScanFrame.trans {s t u : State} (hst : ScanFrame s t) (htu : ScanFrame t u) : ScanFrame s u where
  inst := htu.inst.trans hst.inst
  requests := htu.requests.trans hst.requests
  fault := htu.fault.trans hst.fault
  tx := htu.tx.trans hst.tx
  rx_length_le := htu.rx_length_le.trans hst.rx_length_le
  cursor_le := hst.cursor_le.trans htu.cursor_le

theorem scanStep_frame (s : State) : ScanFrame s (scanStep s).1 := by
  obtain ⟨hinst, hfault, htx, hrequests, _⟩ := scanStep_keeps s
  refine ⟨hinst, hrequests, hfault, htx, ?_, ?_⟩ <;>
    rcases scanStep_cases s with h | ⟨h, _⟩ | ⟨h, _⟩ | ⟨f, rest, _, _, h⟩ <;> simp [h]

/-- A poll is a chain of scan steps: a transitive relation that every scan step respects holds across it. -/
theorem poll_relates {R : State → State → Prop} (trans : ∀ {s t u}, R s t → R t u → R s u)
    (scan : ∀ s, R s (scanStep s).1) (s : State) : R s (poll s).1 := by
  induction s using poll_induction with
  | stop s t r hs hr =>
    have hst : R s t := by simpa [hs] using scan s
    rw [poll_eq, hs]
    cases r with
    | continued => exact absurd rfl hr
    | needMore | frame | alarm => exact hst
  | go s t hs ih =>
    have hst : R s t := by simpa [hs] using scan s
    rw [poll_eq, hs]
    exact trans hst ih

theorem poll_frame (s : State) : ScanFrame s (poll s).1 :=
  poll_relates (R := ScanFrame) ScanFrame.trans scanStep_frame s

/-! ### What each unit leaves alone (10_state.md R20, R21, R28) -/

theorem Effect.keeps_inst_requests {i : Instr} {s t : State} (h : Effect s i t) :
    t.inst = s.inst ∧ t.requests = s.requests := by
  cases h with
  | scans => exact ⟨(scanStep_frame s).inst, (scanStep_frame s).requests⟩
  | polls => exact ⟨(poll_frame s).inst, (poll_frame s).requests⟩
  | _ => exact ⟨rfl, rfl⟩

theorem Effect.keeps_tx_fault {i : Instr} {s t : State} (h : Effect s i t) (henc : isEncoder i = false) :
    t.tx = s.tx ∧ t.fault = s.fault := by
  cases h with
  | sends hi | raises hi | faults hi => simp [hi] at henc
  | scans => exact ⟨(scanStep_frame s).tx, (scanStep_frame s).fault⟩
  | polls => exact ⟨(poll_frame s).tx, (poll_frame s).fault⟩
  | _ => exact ⟨rfl, rfl⟩

theorem Effect.rx_length_le {i : Instr} {s t : State} (h : Effect s i t) (hpush : ∀ data, i ≠ .decPush data) :
    t.rx.length ≤ s.rx.length := by
  cases h with
  | pushes => exact absurd rfl (hpush _)
  | resets => exact Nat.zero_le _
  | scans => exact (scanStep_frame s).rx_length_le
  | polls => exact (poll_frame s).rx_length_le
  | _ => exact le_rfl

theorem Effect.cursor_le {i : Instr} {s t : State} (h : Effect s i t) (hreset : i ≠ .decReset) :
    s.cursor ≤ t.cursor := by
  cases h with
  | resets => exact absurd rfl hreset
  | scans => exact (scanStep_frame s).cursor_le
  | polls => exact (poll_frame s).cursor_le
  | _ => exact le_rfl

/-- The operations that only return something: the two CRCs, DEC_PARSE and DEC_STATUS. -/
theorem Effect.only_returns {i : Instr} {s t : State} (h : Effect s i t)
    (hi : (∃ data, i = .crc5 data ∨ i = .crc16 data ∨ i = .decParse data) ∨ i = .decStatus) :
    ∃ r, t = { s with result := some r } := by
  have henc : isEncoder i = false := by
    obtain ⟨data, rfl | rfl | rfl⟩ | rfl := hi <;> rfl
  cases h with
  | crc5 | crc16 | parses | status => exact ⟨_, rfl⟩
  | sends hi' | raises hi' | faults hi' => simp [hi'] at henc
  | pushes | scans | polls | resets => simp at hi

/-- Settles O44, clause by clause from the effect of the operation. -/
theorem whatEachUnitLeavesAlone : Obligations.WhatEachUnitLeavesAlone := by
  intro i s t h
  have heff := exec_effect h
  obtain ⟨hinst, hrequests⟩ := heff.keeps_inst_requests
  exact ⟨hinst, hrequests, heff.keeps_tx_fault, heff.rx_length_le, heff.cursor_le, heff.only_returns⟩

/-! ### The invariant, kept by each operation on the state -/

theorem fitsCapacity_mono {capacity : Option Nat} {m n : Nat} (hmn : m ≤ n)
    (h : fitsCapacity capacity n = true) : fitsCapacity capacity m = true := by
  cases capacity with
  | none => rfl
  | some c =>
    simp only [fitsCapacity, decide_eq_true_eq] at h ⊢
    exact hmn.trans h

theorem satInc_le_satInc {a b : BitVec 32} (h : a.toNat ≤ b.toNat) : (satInc a).toNat ≤ (satInc b).toNat := by
  rw [satInc_toNat, satInc_toNat]
  omega

theorem toNat_le_satInc (a : BitVec 32) : a.toNat ≤ (satInc a).toNat := by
  have ha := a.isLt
  rw [satInc_toNat, counterMax]
  omega

theorem satInc_le_succ {a : BitVec 32} {n : Nat} (h : a.toNat ≤ n) : (satInc a).toNat ≤ n + 1 := by
  rw [satInc_toNat]
  omega

theorem inv_withRequests {s : State} (h : Inv s) (rest : List Request) : Inv { s with requests := rest } :=
  { h with }

/-- A result keeps the invariant when it is no fault and no frame, or when the state already accounts for it. -/
theorem inv_returning {s : State} {r : OpResult} (h : Inv s)
    (hfault : ∀ f, r = .faulted f → s.fault = some f := by simp)
    (hscan : ∀ f, r = .scan (.frame f) → f ∈ s.delivered := by simp)
    (hpoll : ∀ f v, r = .event (.frame f v) → f ∈ s.delivered ∧ v = parse f := by simp) : Inv (returning s r) :=
  { h with
    fault_returned := fun f hf => hfault f (Option.some.inj hf)
    step_frame_delivered := fun f hf => hscan f (Option.some.inj hf)
    poll_frame_delivered := fun f v hf => hpoll f v (Option.some.inj hf) }

theorem inv_emit {s : State} (h : Inv s) (out : Bytes) : Inv (emit s out) :=
  { h with
    fault_returned := by simp
    step_frame_delivered := by simp
    poll_frame_delivered := by simp }

theorem inv_takeFault {s : State} {n : Nat} (h : Inv s) (hn : s.inst.cfg.lmax.toNat < n) :
    Inv (takeFault s (.payloadTooLong n)) :=
  { h with
    fault_length := by
      intro m hm
      obtain rfl : n = m := by simpa using hm
      exact hn
    fault_returned := by simp
    step_frame_delivered := by simp
    poll_frame_delivered := by simp }

theorem inv_pushBytes {s : State} {data : Bytes} (h : Inv s)
    (hfits : fitsCapacity s.inst.rxCapacity (s.rx.length + data.length) = true) : Inv (pushBytes s data) :=
  { h with capacity := by simpa using hfits }

theorem inv_clearDecoder {s : State} (h : Inv s) : Inv (clearDecoder s) :=
  { h with
    capacity := fitsCapacity_mono (Nat.zero_le _) h.capacity
    mal_le_drop := le_rfl
    drop_le_cursor := le_rfl }

theorem inv_discard1 {s : State} (h : Inv s) : Inv (discard1 s) :=
  { h with
    capacity := fitsCapacity_mono (by simp) h.capacity
    mal_le_drop := h.mal_le_drop.trans (toNat_le_satInc s.drop)
    drop_le_cursor := satInc_le_succ h.drop_le_cursor }

theorem inv_rejectOne {s : State} (h : Inv s) : Inv (rejectOne s) :=
  { inv_discard1 h with mal_le_drop := satInc_le_satInc h.mal_le_drop }

theorem inv_acceptFrame {s : State} {f : Bytes} (h : Inv s) (hf : acceptedFrame s.inst f = true) :
    Inv (acceptFrame s f) where
  capacity := fitsCapacity_mono (by simp) h.capacity
  mal_le_drop := Nat.zero_le _
  drop_le_cursor := h.drop_le_cursor.trans (Nat.le_add_right _ _)
  fault_length := h.fault_length
  fault_returned := h.fault_returned
  delivered_valid := by
    intro g hg
    rcases List.mem_append.1 hg with hold | hnew
    · exact h.delivered_valid g hold
    · rwa [List.mem_singleton.1 hnew]
  step_frame_delivered := fun g hg => List.mem_append_left _ (h.step_frame_delivered g hg)
  poll_frame_delivered := fun g v hg =>
    (h.poll_frame_delivered g v hg).imp_left (List.mem_append_left _)

theorem inv_scanStep {s : State} (h : Inv s) : Inv (scanStep s).1 := by
  rcases scanStep_cases s with hs | ⟨hs, _⟩ | ⟨hs, _⟩ | ⟨f, rest, _, hf, hs⟩ <;> rw [hs]
  · exact h
  · exact inv_discard1 h
  · exact inv_rejectOne h
  · exact inv_acceptFrame h hf

theorem inv_poll {s : State} : Inv s → Inv (poll s).1 :=
  poll_relates (R := fun s t => Inv s → Inv t) (fun hst htu => htu ∘ hst) (fun _ => inv_scanStep) s

/-! ### A returned frame is a delivered one -/

theorem scanStep_frame_mem_delivered {s : State} {f : Bytes} (h : (scanStep s).2 = .frame f) :
    f ∈ (scanStep s).1.delivered := by
  rcases scanStep_delivered s with ⟨g, hg, hdel⟩ | ⟨hno, _⟩
  · obtain rfl : g = f := by simpa [hg] using h
    simp [hdel]
  · exact absurd h (hno f)

theorem poll_frame_mem_delivered {s : State} {f : Bytes} {v : Parsed} (h : (poll s).2 = .frame f v) :
    f ∈ (poll s).1.delivered := by
  rcases poll_delivered s with ⟨g, w, hg, hdel⟩ | ⟨hno, _⟩
  · obtain ⟨rfl, _⟩ : g = f ∧ w = v := by simpa [hg] using h
    simp [hdel]
  · exact absurd h (hno f v)

/-- DEC_POLL returns a frame with its own parse (42_decoder.md R169). -/
theorem poll_frame_parse {s : State} {f : Bytes} {v : Parsed} (h : (poll s).2 = .frame f v) : v = parse f := by
  induction s using poll_induction with
  | stop s t r hs hr =>
    rw [poll_eq, hs] at h
    cases r with
    | continued => exact absurd rfl hr
    | needMore | alarm => cases h
    | frame g =>
      cases h
      rfl
  | go s t hs ih =>
    rw [poll_eq, hs] at h
    exact ih h

/-! ### The invariant, kept by every operation and every step -/

theorem Effect.keeps_inv {i : Instr} {s t : State} (h : Effect s i t) (hs : Inv s) : Inv t := by
  cases h with
  | crc5 | crc16 | raises | parses | status => exact inv_returning hs
  | sends _ out => exact inv_emit hs out
  | faults _ hn => exact inv_takeFault hs hn
  | pushes hfits => exact inv_returning (inv_pushBytes hs hfits)
  | resets => exact inv_returning (inv_clearDecoder hs)
  | scans =>
    refine inv_returning (inv_scanStep hs) (hscan := fun f hf => ?_)
    exact scanStep_frame_mem_delivered (OpResult.scan.inj hf)
  | polls =>
    refine inv_returning (inv_poll hs) (hpoll := fun f v hf => ?_)
    have hevent := OpResult.event.inj hf
    exact ⟨poll_frame_mem_delivered hevent, poll_frame_parse hevent⟩

/-- Settles O49: the invariant does not read the requests, so a step keeps it because the operation it runs does. -/
theorem stepKeepsInvariant : Obligations.StepKeepsInvariant := by
  intro s t hs h
  rcases step_eq_next.1 h with ⟨_, _, rfl⟩ | ⟨r, rest, i, _, _, hexec⟩
  · exact hs
  · exact (exec_effect hexec).keeps_inv (inv_withRequests hs rest)

end Sys2Proof.Machine

/-! PROOFS. The family 20_memory.md: an operation is one atomic step, in the order of issue (R51), and the delivered
frames are disjoint pieces of the buffer, in order (R53). -/

namespace Sys2Proof.Machine

/-! ### The first request (20_memory.md R51) -/

theorem step_of_decode {s : State} {r : Request} {rest : List Request} {i : Instr} (hreq : s.requests = r :: rest)
    (hdec : decode r.space r.bytes = .ok i) : step s = exec i { s with requests := rest } := by
  simp [step, hreq, hdec]

/-- Settles O45, by the equation of `step` for a request that decodes. -/
theorem stepRunsTheFirstRequest : Obligations.StepRunsTheFirstRequest :=
  fun _ _ _ _ hreq hdec => step_of_decode hreq hdec

/-! ### What a scan step and a poll take from the buffer (42_decoder.md R162, R166, R169) -/

theorem poll_of_continued {s t : State} (h : scanStep s = (t, .continued)) : poll s = poll t := by
  rw [poll_eq, h]

theorem poll_of_stop {s t : State} {r : StepResult} (h : scanStep s = (t, r)) (hr : r ≠ .continued) :
    poll s = (t, eventOfStep r) := by
  rw [poll_eq, h]
  cases r with
  | continued => exact absurd rfl hr
  | needMore | frame | alarm => rfl

@[simp] theorem eventBytes_frame (f : Bytes) (v : Parsed) : eventBytes (.frame f v) = f := rfl
@[simp] theorem eventBytes_alarm (k : BitVec 32) : eventBytes (.alarm k) = [] := rfl
@[simp] theorem eventBytes_needMore : eventBytes .needMore = [] := rfl

theorem eventBytes_reject (s : State) : eventBytes (eventOfStep (reject s).2) = [] := by
  rcases reject_snd s with ⟨hr, _⟩ | ⟨k, hr, _⟩ <;> rw [hr] <;> rfl

theorem rx_eq_take_discard1 (s : State) : s.rx = s.rx.take 1 ++ (discard1 s).rx :=
  (List.take_append_drop 1 s.rx).symm

/-- A scan step takes the discarded bytes from the front of the buffer, then the frame it delivers. -/
theorem scanStep_rx_split (s : State) :
    ∃ gap, s.rx = gap ++ eventBytes (eventOfStep (scanStep s).2) ++ (scanStep s).1.rx := by
  rcases scanStep_cases s with h | ⟨h, _⟩ | ⟨h, _⟩ | ⟨f, rest, hrx, _, h⟩ <;> rw [h]
  · exact ⟨[], rfl⟩
  · exact ⟨s.rx.take 1, by simpa [eventOfStep] using rx_eq_take_discard1 s⟩
  · exact ⟨s.rx.take 1, by simpa [eventBytes_reject] using rx_eq_take_discard1 s⟩
  · exact ⟨[], by simp [eventOfStep, hrx]⟩

/-- A poll takes the discarded bytes from the front of the buffer, then the frame it delivers. -/
theorem poll_rx_split (s : State) : ∃ gap, s.rx = gap ++ eventBytes (poll s).2 ++ (poll s).1.rx := by
  induction s using poll_induction with
  | stop s t r hs hr => simpa [poll_of_stop hs hr, hs] using scanStep_rx_split s
  | go s t hs ih =>
    obtain ⟨gap, hgap⟩ := ih
    obtain ⟨hrx, _⟩ := scanStep_takes_one hs (.inl rfl)
    refine ⟨s.rx.take 1 ++ gap, ?_⟩
    calc s.rx = s.rx.take 1 ++ t.rx := by rw [hrx, List.take_append_drop]
      _ = s.rx.take 1 ++ (gap ++ eventBytes (poll t).2 ++ (poll t).1.rx) := congrArg _ hgap
      _ = s.rx.take 1 ++ gap ++ eventBytes (poll s).2 ++ (poll s).1.rx := by
        simp only [poll_of_continued hs, List.append_assoc]

/-! ### Polling until NeedMore, poll by poll -/

/-- The state DEC_POLL leaves: the poll's, with the event returned. -/
def afterPoll (s : State) : State := returning (poll s).1 (.event (poll s).2)

theorem exec_decPoll {s : State} (hlive : s.fault = none) : exec .decPoll s = .next (afterPoll s) :=
  whenLive_live hlive

@[simp] theorem afterPoll_rx (s : State) : (afterPoll s).rx = (poll s).1.rx := rfl

@[simp] theorem afterPoll_result (s : State) : (afterPoll s).result = some (.event (poll s).2) := rfl

@[simp] theorem afterPoll_fault (s : State) : (afterPoll s).fault = s.fault := (poll_frame s).fault

theorem pollUntilNeedMore_of_needMore {s : State} (hlive : s.fault = none) (h : (poll s).2 = .needMore) (fuel : Nat) :
    pollUntilNeedMore (fuel + 1) s = (afterPoll s, []) := by
  simp [pollUntilNeedMore, exec_decPoll hlive, h]

theorem pollUntilNeedMore_of_event {s : State} (hlive : s.fault = none) (h : (poll s).2 ≠ .needMore) (fuel : Nat) :
    pollUntilNeedMore (fuel + 1) s =
      ((pollUntilNeedMore fuel (afterPoll s)).1, (poll s).2 :: (pollUntilNeedMore fuel (afterPoll s)).2) := by
  simp only [pollUntilNeedMore, exec_decPoll hlive, afterPoll_result]
  cases hevent : (poll s).2 with
  | needMore => exact absurd hevent h
  | frame | alarm => rfl

/-! ### Pieces of the buffer in order (20_memory.md R53) -/

/-- `before` is a gap, the first frame, a gap, the second, and so on, then some last bytes and `after`. -/
def FramesInOrder (before : Bytes) (frames : List Bytes) (after : Bytes) : Prop :=
  ∃ (gaps : List Bytes) (last : Bytes), gaps.length = frames.length ∧
    before = (List.zipWith (· ++ ·) gaps frames).flatten ++ last ++ after

theorem framesInOrder_nil (last after : Bytes) : FramesInOrder (last ++ after) [] after :=
  ⟨[], last, rfl, rfl⟩

theorem FramesInOrder.cons {before after : Bytes} {frames : List Bytes} (h : FramesInOrder before frames after)
    (gap frame : Bytes) : FramesInOrder (gap ++ frame ++ before) (frame :: frames) after := by
  obtain ⟨gaps, last, hlen, rfl⟩ := h
  exact ⟨gap :: gaps, last, by simp [hlen], by simp⟩

/-- Bytes discarded in front widen the first gap, or the last bytes where no frame follows. -/
theorem FramesInOrder.discard {before after : Bytes} {frames : List Bytes} (h : FramesInOrder before frames after)
    (gap : Bytes) : FramesInOrder (gap ++ before) frames after := by
  obtain ⟨gaps, last, hlen, rfl⟩ := h
  match gaps, frames, hlen with
  | [], [], _ => exact ⟨[], gap ++ last, rfl, by simp⟩
  | g :: gaps, f :: frames, hlen => exact ⟨(gap ++ g) :: gaps, last, hlen, by simp⟩

/-- By induction on the fuel: each poll puts its gap, and its frame if it delivers one, in front of the later ones. -/
theorem pollUntilNeedMore_framesInOrder (fuel : Nat) {s : State} (hlive : s.fault = none) :
    FramesInOrder s.rx ((pollUntilNeedMore fuel s).2.filterMap eventFrame) (pollUntilNeedMore fuel s).1.rx := by
  induction fuel generalizing s with
  | zero => exact framesInOrder_nil [] s.rx
  | succ fuel ih =>
    have hlater := ih (s := afterPoll s) (by simpa using hlive)
    obtain ⟨gap, hgap⟩ := poll_rx_split s
    rw [hgap]
    cases hevent : (poll s).2 with
    | needMore =>
      rw [pollUntilNeedMore_of_needMore hlive hevent]
      simpa using framesInOrder_nil gap (poll s).1.rx
    | alarm k =>
      rw [pollUntilNeedMore_of_event hlive (by simp [hevent]), hevent, List.filterMap_cons_none rfl]
      simpa using hlater.discard gap
    | frame f v =>
      rw [pollUntilNeedMore_of_event hlive (by simp [hevent]), hevent]
      exact hlater.cons gap f

/-- Settles O57: the statement is `FramesInOrder` written out. -/
theorem framesComeInOrder : Obligations.FramesComeInOrder :=
  fun _ fuel hlive => pollUntilNeedMore_framesInOrder fuel hlive

end Sys2Proof.Machine

/-! PROOFS. The family 30_encoding.md: decode and encode are inverse to each other (R67, R68, R75, R90, R91), the wire
rows send the frame of their header (R67, R68), the header map (R65, R73), and the record of delivered frames (R91). -/

namespace Sys2Proof

open Sys2Proof.Machine (be16 be32)

/-! ### What each reader of a group of operands accepts

As in Laws/Decode: a reader answers a value exactly on the bytes its writer writes. -/

theorem readMode_eq_ok {bs rest : Bytes} {mode : Mode} :
    readMode bs = .ok (mode, rest) ↔ (mode = .unicast ∧ bs = 0 :: rest) ∨ (mode = .broadcast ∧ bs = 1 :: rest) := by
  cases bs with
  | nil => simp [readMode]
  | cons b r =>
    simp only [readMode]
    split
    · simp_all [@eq_comm _ mode]
    · split <;> simp_all [@eq_comm _ mode]

/-- A mode and the address it takes: none, and the address 0, for a broadcast (30_encoding.md R92). -/
theorem readMode_readAddr_eq_ok {bs rest : Bytes} {mode : Mode} {addr : Byte} :
    (∃ r, readMode bs = .ok (mode, r) ∧ readAddr mode r = .ok (addr, rest)) ↔
      addrFits mode addr = true ∧ bs = writeModeAddr mode addr ++ rest := by
  cases mode with
  | unicast => simp [readMode_eq_ok, readAddr, readByte_eq_ok, addrFits, writeModeAddr]
  | broadcast => simp [readMode_eq_ok, readAddr, addrFits, writeModeAddr, @eq_comm _ addr, and_comm]

theorem readRegValue_eq_ok {make : Byte → BitVec 32 → Instr} {bs rest : Bytes} {i : Instr} :
    readRegValue make bs = .ok (i, rest) ↔ ∃ reg value, i = make reg value ∧ bs = reg :: (be32 value ++ rest) := by
  constructor
  · intro h
    obtain ⟨reg, r, hreg, h⟩ := andThen_eq_ok.1 h
    obtain ⟨value, r', hvalue, h⟩ := andThen_eq_ok.1 h
    cases h
    exact ⟨reg, value, rfl, by rw [readByte_eq_ok.1 hreg, readU32_eq_ok.1 hvalue]⟩
  · rintro ⟨reg, value, rfl, rfl⟩
    simp [readRegValue, readByte]

theorem readJobResult_eq_ok {make : Byte → Byte → BitVec 32 → BitVec 16 → Instr} {bs rest : Bytes} {i : Instr} :
    readJobResult make bs = .ok (i, rest) ↔ ∃ jobId addr nonce version, i = make jobId addr nonce version ∧
      bs = jobId :: addr :: (be32 nonce ++ (be16 version ++ rest)) := by
  constructor
  · intro h
    obtain ⟨jobId, r, hjobId, h⟩ := andThen_eq_ok.1 h
    obtain ⟨addr, r', haddr, h⟩ := andThen_eq_ok.1 h
    obtain ⟨nonce, r'', hnonce, h⟩ := andThen_eq_ok.1 h
    obtain ⟨version, r''', hversion, h⟩ := andThen_eq_ok.1 h
    cases h
    refine ⟨jobId, addr, nonce, version, rfl, ?_⟩
    rw [readByte_eq_ok.1 hjobId, readByte_eq_ok.1 haddr, readU32_eq_ok.1 hnonce, readU16_eq_ok.1 hversion]
  · rintro ⟨jobId, addr, nonce, version, rfl, rfl⟩
    simp [readJobResult, readByte]

/-- The number in front of a job frame's work is the work's own length, and at most what a frame can hold. -/
theorem readFrameJob_eq_ok {bs rest : Bytes} {i : Instr} :
    readFrameJob bs = .ok (i, rest) ↔ ∃ jobId work, i = .frameJob jobId work ∧ work.length ≤ maxFrameWork ∧
      bs = writeNat work.length ++ jobId :: (work ++ rest) := by
  constructor
  · intro h
    obtain ⟨n, r, hn, h⟩ := andThen_eq_ok.1 h
    split at h
    · cases h
    · obtain ⟨jobId, r', hjobId, h⟩ := andThen_eq_ok.1 h
      split at h
      · cases h
      · cases h
        have hlen : (r'.take n).length = n := List.length_take_of_le (by omega)
        refine ⟨jobId, r'.take n, rfl, by omega, ?_⟩
        rw [hlen, readNat_eq_ok.1 hn, readByte_eq_ok.1 hjobId, List.take_append_drop]
  · rintro ⟨jobId, work, rfl, hwork, rfl⟩
    simp [readFrameJob, readByte, Nat.not_lt.2 hwork]

/-! ### The operands of a row (30_encoding.md R67, R68, R75, R90) -/

theorem readOperands_writeOperands {i : Instr} (hi : i.wellFormed = true) (rest : Bytes) :
    readOperands i.row (writeOperands i ++ rest) = .ok (i, rest) := by
  cases i with
  | encInactive | decStep | decPoll | decReset | decStatus | encSetaddr | frameSetaddr | frameReadRegU | frameReadRegB
  | frameChainInactive => rfl
  | crc5 | crc16 | decPush | decParse | encBaud => simp [Instr.row, readOperands, writeOperands]
  | encJob => simp [Instr.row, readOperands, writeOperands, readByte]
  | encRead mode addr reg =>
    obtain ⟨r, hmode, haddr⟩ := readMode_readAddr_eq_ok (rest := reg :: rest).2 ⟨hi, rfl⟩
    simp [Instr.row, readOperands, writeOperands, hmode, haddr, readByte]
  | encWrite mode addr reg value =>
    obtain ⟨r, hmode, haddr⟩ := readMode_readAddr_eq_ok (rest := reg :: (be32 value ++ rest)).2 ⟨hi, rfl⟩
    simp [Instr.row, readOperands, writeOperands, hmode, haddr, readRegValue_eq_ok]
  | encRreg | frameWriteRegU | frameRespReg =>
    simp [Instr.row, readOperands, writeOperands, readByte, readRegValue_eq_ok]
  | frameWriteRegB => simp [Instr.row, readOperands, writeOperands, readZero, readRegValue_eq_ok]
  | encRjob jobId addr nonce version | frameRespJob jobId addr nonce version =>
    exact readJobResult_eq_ok.2 ⟨jobId, addr, nonce, version, rfl, by simp [writeOperands]⟩
  | frameJob jobId work =>
    exact readFrameJob_eq_ok.2 ⟨jobId, work, rfl, of_decide_eq_true hi, by simp [writeOperands]⟩

/-- By cases on the row: its reader is a sequence of readers, each of which answers only on what its writer writes. -/
theorem eq_writeOperands_of_readOperands {row : Row} {bs rest : Bytes} {i : Instr}
    (h : readOperands row bs = .ok (i, rest)) :
    i.row = row ∧ i.wellFormed = true ∧ bs = writeOperands i ++ rest := by
  cases row with
  | encInactive | decStep | decPoll | decReset | decStatus =>
    cases h
    exact ⟨rfl, rfl, rfl⟩
  | crc5 | crc16 | decPush | decParse =>
    obtain ⟨data, r, hdata, h⟩ := andThen_eq_ok.1 h
    cases h
    exact ⟨rfl, rfl, readBytes_eq_ok.1 hdata⟩
  | encBaud =>
    obtain ⟨rate, r, hrate, h⟩ := andThen_eq_ok.1 h
    cases h
    exact ⟨rfl, rfl, readNat_eq_ok.1 hrate⟩
  | encSetaddr =>
    obtain ⟨addr, r, haddr, h⟩ := andThen_eq_ok.1 h
    cases h
    exact ⟨rfl, rfl, readByte_eq_ok.1 haddr⟩
  | encRead =>
    obtain ⟨mode, r, hmode, h⟩ := andThen_eq_ok.1 h
    obtain ⟨addr, r', haddr, h⟩ := andThen_eq_ok.1 h
    obtain ⟨reg, r'', hreg, h⟩ := andThen_eq_ok.1 h
    cases h
    obtain ⟨hfits, rfl⟩ := readMode_readAddr_eq_ok.1 ⟨r, hmode, haddr⟩
    exact ⟨rfl, hfits, by simp [writeOperands, readByte_eq_ok.1 hreg]⟩
  | encWrite =>
    obtain ⟨mode, r, hmode, h⟩ := andThen_eq_ok.1 h
    obtain ⟨addr, r', haddr, h⟩ := andThen_eq_ok.1 h
    obtain ⟨reg, value, rfl, rfl⟩ := readRegValue_eq_ok.1 h
    obtain ⟨hfits, rfl⟩ := readMode_readAddr_eq_ok.1 ⟨r, hmode, haddr⟩
    exact ⟨rfl, hfits, by simp [writeOperands]⟩
  | encJob =>
    obtain ⟨jobId, r, hjobId, h⟩ := andThen_eq_ok.1 h
    obtain ⟨work, r', hwork, h⟩ := andThen_eq_ok.1 h
    obtain ⟨mask, r'', hmask, h⟩ := andThen_eq_ok.1 h
    cases h
    refine ⟨rfl, rfl, ?_⟩
    simp [writeOperands, readByte_eq_ok.1 hjobId, readBytes_eq_ok.1 hwork, readMask_eq_ok.1 hmask]
  | encRreg | frameWriteRegU | frameRespReg =>
    obtain ⟨addr, r, haddr, h⟩ := andThen_eq_ok.1 h
    obtain ⟨reg, value, rfl, rfl⟩ := readRegValue_eq_ok.1 h
    exact ⟨rfl, rfl, readByte_eq_ok.1 haddr⟩
  | frameWriteRegB =>
    obtain ⟨_, r, hzero, h⟩ := andThen_eq_ok.1 h
    obtain ⟨reg, value, rfl, rfl⟩ := readRegValue_eq_ok.1 h
    exact ⟨rfl, rfl, readZero_eq_ok.1 hzero⟩
  | encRjob | frameRespJob =>
    obtain ⟨jobId, addr, nonce, version, rfl, rfl⟩ := readJobResult_eq_ok.1 h
    exact ⟨rfl, rfl, by simp [writeOperands]⟩
  | frameSetaddr =>
    obtain ⟨addr, r, haddr, h⟩ := andThen_eq_ok.1 h
    obtain ⟨_, r', hzero, h⟩ := andThen_eq_ok.1 h
    cases h
    exact ⟨rfl, rfl, by rw [readByte_eq_ok.1 haddr, readZero_eq_ok.1 hzero]; rfl⟩
  | frameReadRegU =>
    obtain ⟨addr, r, haddr, h⟩ := andThen_eq_ok.1 h
    obtain ⟨reg, r', hreg, h⟩ := andThen_eq_ok.1 h
    cases h
    exact ⟨rfl, rfl, by rw [readByte_eq_ok.1 haddr, readByte_eq_ok.1 hreg]; rfl⟩
  | frameReadRegB =>
    obtain ⟨_, r, hzero, h⟩ := andThen_eq_ok.1 h
    obtain ⟨reg, r', hreg, h⟩ := andThen_eq_ok.1 h
    cases h
    exact ⟨rfl, rfl, by rw [readZero_eq_ok.1 hzero, readByte_eq_ok.1 hreg]; rfl⟩
  | frameChainInactive =>
    obtain ⟨_, r, hzero, h⟩ := andThen_eq_ok.1 h
    obtain ⟨_, r', hzero', h⟩ := andThen_eq_ok.1 h
    cases h
    exact ⟨rfl, rfl, by rw [readZero_eq_ok.1 hzero, readZero_eq_ok.1 hzero']; rfl⟩
  | frameJob =>
    obtain ⟨jobId, work, rfl, hwork, rfl⟩ := readFrameJob_eq_ok.1 h
    exact ⟨rfl, decide_eq_true hwork, by simp [writeOperands]⟩

/-- What the operand reader of a row accepts. -/
theorem readOperands_eq_ok {row : Row} {bs rest : Bytes} {i : Instr} :
    readOperands row bs = .ok (i, rest) ↔ i.row = row ∧ i.wellFormed = true ∧ bs = writeOperands i ++ rest := by
  refine ⟨eq_writeOperands_of_readOperands, ?_⟩
  rintro ⟨rfl, hi, rfl⟩
  exact readOperands_writeOperands hi rest

/-! ### The code byte (30_encoding.md R67, R68, R90) -/

theorem codeOfRow_of_mem_opcodeTable : ∀ e ∈ opcodeTable, codeOfRow e.1 = e.2 := by decide

/-- A code byte selects a row exactly when it is that row's in that encoding. -/
theorem rowOfCode_eq_some {space : Space} {code : Byte} {row : Row} :
    rowOfCode space code = some row ↔ codeOfRow row = (space, code) := by
  constructor
  · intro h
    obtain ⟨⟨row', space', code'⟩, hfind, rfl⟩ := Option.map_eq_some_iff.1 h
    obtain ⟨rfl, rfl⟩ : space' = space ∧ code' = code := by simpa using List.find?_some hfind
    exact codeOfRow_of_mem_opcodeTable _ (List.mem_of_find?_eq_some hfind)
  · intro h
    have hrow := rowOfCode_codeOfRow row
    rwa [h] at hrow

/-! ### A whole request (30_encoding.md R91) -/

theorem decodePrefix_cons_eq_ok {space : Space} {code : Byte} {operands rest : Bytes} {i : Instr} :
    decodePrefix space (code :: operands) = .ok (i, rest) ↔
      ∃ row, rowOfCode space code = some row ∧ readOperands row operands = .ok (i, rest) := by
  simp only [decodePrefix]
  cases rowOfCode space code <;> simp

/-- What stands at the front of some bytes is an instruction exactly when it is that instruction's encoding. -/
theorem decodePrefix_eq_ok {space : Space} {bs rest : Bytes} {i : Instr} :
    decodePrefix space bs = .ok (i, rest) ↔ i.wellFormed = true ∧ spaceOf i = space ∧ bs = encode i ++ rest := by
  cases bs with
  | nil => simp [decodePrefix, encode]
  | cons code operands =>
    simp only [decodePrefix_cons_eq_ok, rowOfCode_eq_some, readOperands_eq_ok]
    constructor
    · rintro ⟨_, hcode, rfl, hi, rfl⟩
      exact ⟨hi, congrArg Prod.fst hcode, by simp [encode, codeOf, hcode]⟩
    · rintro ⟨hi, rfl, hbs⟩
      obtain ⟨rfl, rfl⟩ := List.cons.inj hbs
      exact ⟨i.row, rfl, rfl, hi, rfl⟩

/-- A request is one operation and nothing after it. -/
theorem decode_eq_ok_iff_decodePrefix {space : Space} {bs : Bytes} {i : Instr} :
    decode space bs = .ok i ↔ decodePrefix space bs = .ok (i, []) := by
  unfold decode
  split <;> simp [*]

/-- Decode and encode are inverse to each other on the well-formed instructions of an encoding. -/
theorem decode_eq_ok {space : Space} {bs : Bytes} {i : Instr} :
    decode space bs = .ok i ↔ i.wellFormed = true ∧ spaceOf i = space ∧ encode i = bs := by
  rw [decode_eq_ok_iff_decodePrefix, decodePrefix_eq_ok, List.append_nil, @eq_comm _ bs]

/-- Settles O50: one direction of `decode_eq_ok`. -/
theorem decodeAfterEncode : Obligations.DecodeAfterEncode :=
  fun _ hi => decode_eq_ok.2 ⟨hi, rfl, rfl⟩

/-- Settles O51: the other direction of `decode_eq_ok`. -/
theorem encodeAfterDecode : Obligations.EncodeAfterDecode :=
  fun _ _ _ h => decode_eq_ok.1 h

/-- Settles O52: the words that decode are encodings written out, and no row of the wire has the code byte 0x43. -/
theorem decodeOfWrittenWords : Obligations.DecodeOfWrittenWords := by
  refine ⟨?_, ?_, ?_, ?_, ?_, rfl⟩
  all_goals exact decode_eq_ok.2 ⟨rfl, rfl, rfl⟩

end Sys2Proof

namespace Sys2Proof.Machine

/-! ### The wire rows (30_encoding.md R67, R68) -/

/-- An operation of one control frame sends it in a live block. -/
theorem encodeControl_live {s : State} (hlive : s.fault = none) (t : Byte) (p : Bytes) :
    encodeControl t p s =
      .next (sent s (controlFrame s.inst.cfg ([t, BitVec.ofNat 8 (3 + p.length)] ++ p))) :=
  encodeControl_eq_next.2 ⟨hlive, rfl⟩

/-- An operation of one long frame within LMAX sends it in a live block, behind the bytes before it. -/
theorem encodeLong_live_of_le {s : State} (hlive : s.fault = none) (before : Bytes) (pre : Preamble) (t : Byte)
    {p : Bytes} (hle : 4 + p.length ≤ s.inst.cfg.lmax.toNat) :
    encodeLong before pre t p s =
      .next (sent s (before ++ longFrame s.inst.cfg pre ([t, BitVec.ofNat 8 (4 + p.length)] ++ p))) := by
  rcases frameC16_cases s.inst.cfg pre t p with ⟨_, hok⟩ | ⟨hlt, _⟩
  · exact encodeLong_eq_next.2 ⟨hlive, .inl ⟨_, hok, rfl⟩⟩
  · omega

/-- An operation of one long frame beyond LMAX takes the fault in a live block (60_exceptions.md R205). -/
theorem encodeLong_live_of_lt {s : State} (hlive : s.fault = none) (before : Bytes) (pre : Preamble) (t : Byte)
    {p : Bytes} (hlt : s.inst.cfg.lmax.toNat < 4 + p.length) :
    encodeLong before pre t p s = .next (tooLong s (4 + p.length)) := by
  rcases frameC16_cases s.inst.cfg pre t p with ⟨hle, _⟩ | ⟨_, herror⟩
  · omega
  · exact encodeLong_eq_next.2 ⟨hlive, .inr ⟨_, herror, rfl⟩⟩

/-- The payload of a register write, its value written as bytes. -/
theorem writePayload_append (addr reg v3 v2 v1 v0 : Byte) :
    writePayload addr reg (v3 ++ v2 ++ v1 ++ v0) = [addr, reg, v3, v2, v1, v0] := by
  rw [writePayload, be32_append]

/-- Settles O16: each row is `encodeControl` of its header and payload. -/
theorem controlFrameRowsSendTheirFrame : Obligations.ControlFrameRowsSendTheirFrame := by
  intro s addr reg v3 v2 v1 v0 hlive
  have hwrite (t a : Byte) : encodeControl t (writePayload a reg (v3 ++ v2 ++ v1 ++ v0)) s =
      .next (sent s (controlFrame s.inst.cfg [t, 0x09, a, reg, v3, v2, v1, v0])) := by
    rw [writePayload_append]
    exact encodeControl_live hlive t _
  exact ⟨encodeControl_live hlive hSetaddr [addr, 0], hwrite hWriteRegU addr, hwrite hWriteRegB 0,
    encodeControl_live hlive hReadRegU [addr, reg], encodeControl_live hlive hReadRegB [0, reg],
    encodeControl_live hlive hChainInactive [0, 0]⟩

/-- A job's length byte counts the job id with its work. -/
theorem four_add_length_cons (jobId : Byte) (work : Bytes) : 4 + (jobId :: work).length = 5 + work.length := by
  rw [List.length_cons]
  omega

/-- Settles O17: each row is `encodeLong` of its header and payload, within LMAX or beyond it. -/
theorem longFrameRowsSendTheirFrame : Obligations.LongFrameRowsSendTheirFrame := by
  intro s a b v3 v2 v1 v0 r1 r0 work hlive
  have hjob := four_add_length_cons a work
  refine ⟨fun hle => ?_, fun hlt => ?_, fun hle => ?_, fun hle => ?_⟩
  · have hsent := encodeLong_live_of_le hlive [] s.inst.cfg.preCmd hJob (p := a :: work) (by omega)
    rwa [hjob] at hsent
  · have hfault := encodeLong_live_of_lt hlive [] s.inst.cfg.preCmd hJob (p := a :: work) (by omega)
    rwa [hjob] at hfault
  · change encodeLong [] _ hRespReg (a :: b :: be32 (v3 ++ v2 ++ v1 ++ v0)) s = _
    rw [be32_append]
    exact encodeLong_live_of_le hlive [] _ hRespReg hle
  · change encodeLong [] _ hRespJob (a :: b :: (be32 (v3 ++ v2 ++ v1 ++ v0) ++ be16 (r1 ++ r0))) s = _
    rw [be32_append, be16_append]
    exact encodeLong_live_of_le hlive [] _ hRespJob hle

/-! ### The header map (30_encoding.md R64, R65, R73) -/

theorem typeOf_toNat (t : Byte) : (typeOf t).toNat = t.toNat / 32 := by
  have ht := t.isLt
  simp only [typeOf, BitVec.extractLsb'_toNat, Nat.shiftRight_eq_div_pow]
  omega

/-- Concatenation as a number: the high part counts in units of the low part's range. -/
theorem toNat_append_eq_mul_add {m n : Nat} (x : BitVec m) (y : BitVec n) :
    (x ++ y).toNat = x.toNat * 2 ^ n + y.toNat := by
  rw [BitVec.toNat_append, ← Nat.shiftLeft_add_eq_or_of_lt y.isLt, Nat.shiftLeft_eq]

theorem headerByte_toNat (type : BitVec 3) (all : Bool) (cmd : BitVec 4) :
    (headerByte type all cmd).toNat = 32 * type.toNat + 16 * all.toNat + cmd.toNat := by
  calc (headerByte type all cmd).toNat = (type.toNat * 2 ^ 1 + all.toNat) * 2 ^ 4 + cmd.toNat := by
        rw [headerByte, toNat_append_eq_mul_add, toNat_append_eq_mul_add, BitVec.toNat_ofBool]
    _ = 32 * type.toNat + 16 * all.toNat + cmd.toNat := by omega

/-- The headers of one TYPE are a range of bytes: every ALL and CMD under it. -/
theorem typeOf_eq_iff {t : Byte} {type : BitVec 3} :
    typeOf t = type ↔ headerByte type false 0 ≤ t ∧ t ≤ headerByte type true 15 := by
  rw [← BitVec.toNat_inj, typeOf_toNat, BitVec.le_def, BitVec.le_def, headerByte_toNat, headerByte_toNat]
  simp only [Bool.toNat_false, Bool.toNat_true, BitVec.reduceToNat]
  omega

theorem acceptedClass_chip (t : Byte) :
    acceptedClass .chip t = if typeOf t = typeCtl then some .c5 else if typeOf t = typeJob then some .c16 else none := by
  by_cases hctl : typeOf t = typeCtl
  · simp [acceptedClass, accepts, cls, hctl]
  · by_cases hjob : typeOf t = typeJob <;> simp [acceptedClass, accepts, cls, hctl, hjob]

theorem acceptedClass_host (t : Byte) :
    acceptedClass .host t = if typeOf t = typeRreg ∨ typeOf t = typeRjob then some .c16 else none := by
  by_cases hrsp : typeOf t = typeRreg ∨ typeOf t = typeRjob
  · have hctl : typeOf t ≠ typeCtl := by rcases hrsp with h | h <;> rw [h] <;> decide
    simp [acceptedClass, accepts, cls, hctl, hrsp]
  · simp [acceptedClass, accepts, hrsp]

/-- Settles O37: the ranges of bytes are the ranges of the TYPEs. -/
theorem headerMapOfEveryByte : Obligations.HeaderMapOfEveryByte := by
  intro t
  have hctl : typeOf t = typeCtl ↔ 0x40 ≤ t ∧ t ≤ 0x5F := typeOf_eq_iff
  have hjob : typeOf t = typeJob ↔ 0x20 ≤ t ∧ t ≤ 0x3F := typeOf_eq_iff
  have hrreg : typeOf t = typeRreg ↔ 0x60 ≤ t ∧ t ≤ 0x7F := typeOf_eq_iff
  have hrjob : typeOf t = typeRjob ↔ 0x80 ≤ t ∧ t ≤ 0x9F := typeOf_eq_iff
  have hrsp : (typeOf t = typeRreg ∨ typeOf t = typeRjob) ↔ 0x60 ≤ t ∧ t ≤ 0x9F := by
    rw [hrreg, hrjob]
    bv_omega
  simp only [acceptedClass_chip, acceptedClass_host, hctl, hjob, hrsp, and_self]

/-! ### The record of delivered frames (30_encoding.md R91, 70_reset_and_hazards.md R239) -/

/-- The frame a result carries. -/
def returnedFrame : Option OpResult → Option Bytes
  | some (.scan (.frame f)) => some f
  | some (.event (.frame f _)) => some f
  | _ => none

theorem returnedFrame_eq_some {r : Option OpResult} {f : Bytes} :
    returnedFrame r = some f ↔ r = some (.scan (.frame f)) ∨ ∃ v, r = some (.event (.frame f v)) := by
  unfold returnedFrame
  split <;> simp_all

theorem returnedFrame_eq_none {r : Option OpResult} :
    returnedFrame r = none ↔ ∀ f, r ≠ some (.scan (.frame f)) ∧ ∀ v, r ≠ some (.event (.frame f v)) := by
  simp [Option.eq_none_iff_forall_ne_some, returnedFrame_eq_some]

/-- What an operation adds to the record is the frame it returns, if it returns one. -/
theorem Effect.delivered {i : Instr} {s t : State} (h : Effect s i t) :
    t.delivered = s.delivered ++ (returnedFrame t.result).toList := by
  cases h with
  | scans =>
    rcases scanStep_delivered s with ⟨f, hf, hdel⟩ | ⟨hno, hdel⟩
    · simp [hdel, hf, returnedFrame]
    · have hnone : returnedFrame (some (.scan (scanStep s).2)) = none := returnedFrame_eq_none.2 (by simp [hno])
      simp [hdel, hnone]
  | polls =>
    rcases poll_delivered s with ⟨f, v, hf, hdel⟩ | ⟨hno, hdel⟩
    · simp [hdel, hf, returnedFrame]
    · have hnone : returnedFrame (some (.event (poll s).2)) = none := returnedFrame_eq_none.2 (by simp [hno])
      simp [hdel, hnone]
  | _ => simp [returnedFrame]

/-- Only DEC_STEP and DEC_POLL return a frame. -/
theorem Effect.returns_frame {i : Instr} {s t : State} {f : Bytes} (h : Effect s i t)
    (hf : returnedFrame t.result = some f) : i = .decStep ∨ i = .decPoll := by
  cases h with
  | scans => exact .inl rfl
  | polls => exact .inr rfl
  | _ => simp [returnedFrame] at hf

/-- Settles O31, from the effect of the operation and the frame its result carries. -/
theorem deliveredFramesAreRecorded : Obligations.DeliveredFramesAreRecorded := by
  refine ⟨create_delivered, fun i s t h => ⟨fun f hf => ?_, fun hno => ?_⟩⟩
  · have hframe := returnedFrame_eq_some.2 hf
    exact ⟨(exec_effect h).returns_frame hframe, by simpa [hframe] using (exec_effect h).delivered⟩
  · simpa [returnedFrame_eq_none.2 hno] using (exec_effect h).delivered

theorem exec_decParse {s : State} (hlive : s.fault = none) (f : Bytes) :
    exec (.decParse f) s =
      if f ∈ s.delivered then .next (returning s (.parsed (parse f))) else .refused .parseOfUndeliveredBytes :=
  whenLive_live hlive

/-- Settles O33: of a live block only the membership test decides. -/
theorem decParseOfOtherBytesIsRefused : Obligations.DecParseOfOtherBytesIsRefused := by
  intro s f hlive hf
  rw [exec_decParse hlive, if_neg hf]

end Sys2Proof.Machine

/-! PROOFS. The family 40_crc.md: what the two CRC operations return (R100, R101, R104, R105), the CRC as a remainder over
GF(2) (R103, R106), the residue (R107) and the affine law (R110). Both CRCs are one register step of any width, `crcStep`. -/

namespace Sys2Proof.Machine

open Polynomial

/-! ### The register (40_crc.md R100, R104) -/

/-- The step both CRCs share, for a register of any width. -/
def crcStep {w : Nat} (poly c : BitVec w) (b : Bool) : BitVec w :=
  if c.msb ^^ b then (c <<< 1) ^^^ poly else c <<< 1

theorem step5_eq_crcStep : step5 = crcStep := by
  funext poly c b
  rw [step5, crcStep, BitVec.msb_eq_getLsbD_last]

theorem step16_eq_crcStep : step16 = crcStep := by
  funext poly c b
  rw [step16, crcStep, BitVec.msb_eq_getLsbD_last]

theorem getLsbD_crcStep {w : Nat} (poly c : BitVec w) (b : Bool) (i : Nat) :
    (crcStep poly c b).getLsbD i = ((c <<< 1).getLsbD i ^^ ((c.msb ^^ b) && poly.getLsbD i)) := by
  unfold crcStep
  split <;> simp [*]

/-- The step is linear in register and bit together: at each bit of the register it is an exclusive-or of conjunctions with
the polynomial. -/
theorem crcStep_xor {w : Nat} (poly c d : BitVec w) (a b : Bool) :
    crcStep poly (c ^^^ d) (a ^^ b) = crcStep poly c a ^^^ crcStep poly d b := by
  refine BitVec.eq_of_getLsbD_eq fun i _ => ?_
  rw [BitVec.getLsbD_xor]
  simp only [getLsbD_crcStep, BitVec.shiftLeft_xor_distrib, BitVec.getLsbD_xor, BitVec.msb_xor]
  grind

/-- A fold of the linear step is linear. -/
theorem foldl_crcStep_xor {w : Nat} (poly c d : BitVec w) {as bs : List Bool} (hlen : as.length = bs.length) :
    (List.zipWith (· ^^ ·) as bs).foldl (crcStep poly) (c ^^^ d) =
      as.foldl (crcStep poly) c ^^^ bs.foldl (crcStep poly) d := by
  induction as generalizing bs c d with
  | nil =>
    obtain rfl := List.length_eq_zero_iff.1 hlen.symm
    rfl
  | cons a as ih =>
    obtain ⟨b, bs, rfl⟩ := List.exists_cons_of_length_eq_add_one hlen.symm
    simp only [List.zipWith_cons_cons, List.foldl_cons, crcStep_xor]
    exact ih _ _ (Nat.succ.inj hlen)

/-! ### The bits of a byte sequence (20_memory.md R43) -/

/-- The spec has one bit order. -/
theorem bitOrder_eq_msbFirst (order : BitOrder) : order = .msbFirst := by
  cases order
  rfl

@[simp] theorem length_byteBits (order : BitOrder) (b : Byte) : (byteBits order b).length = 8 := by
  cases order
  rfl

@[simp] theorem length_dataBits (order : BitOrder) (data : Bytes) : (dataBits order data).length = 8 * data.length := by
  simp [dataBits, List.length_flatMap, Nat.mul_comm]

theorem dataBits_append (order : BitOrder) (a b : Bytes) :
    dataBits order (a ++ b) = dataBits order a ++ dataBits order b := List.flatMap_append

theorem byteBits_xor (order : BitOrder) (a b : Byte) :
    byteBits order (a ^^^ b) = List.zipWith (· ^^ ·) (byteBits order a) (byteBits order b) := by
  cases order
  simp [byteBits]

theorem dataBits_zipWith_xor (order : BitOrder) {a b : Bytes} (hlen : a.length = b.length) :
    dataBits order (List.zipWith (· ^^^ ·) a b) = List.zipWith (· ^^ ·) (dataBits order a) (dataBits order b) := by
  induction a generalizing b with
  | nil => rfl
  | cons x xs ih =>
    obtain ⟨y, ys, rfl⟩ := List.exists_cons_of_length_eq_add_one hlen.symm
    have hbytes : (byteBits order x).length = (byteBits order y).length := by simp
    simp only [dataBits, List.zipWith_cons_cons, List.flatMap_cons, byteBits_xor, List.zipWith_append hbytes]
    exact congrArg _ (ih (Nat.succ.inj hlen))

theorem zipWith_xor_self (a : Bytes) : List.zipWith (· ^^^ ·) a a = List.replicate a.length 0 := by
  simp [List.zipWith_self]

/-- The 16 bits of `be16 v` enter in the order of a register. -/
theorem dataBits_be16 (order : BitOrder) (v : BitVec 16) : dataBits order (be16 v) = registerBits v := by
  cases order
  simp [dataBits, byteBits, be16, registerBits, List.range_succ, BitVec.getMsbD]

/-! ### A register as a polynomial (40_crc.md R103) -/

/-- The polynomial over GF(2) whose coefficients are the bits of a register. -/
noncomputable def registerPoly {w : Nat} (v : BitVec w) : (ZMod 2)[X] := bitsPoly (registerBits v)

theorem bitsPoly_append_singleton (bits : List Bool) (b : Bool) :
    bitsPoly (bits ++ [b]) = X * bitsPoly bits + if b then 1 else 0 := by
  simp [bitsPoly]

theorem coeff_bitsPoly (bits : List Bool) (i : Nat) :
    (bitsPoly bits).coeff i = if bits.reverse.getD i false then 1 else 0 := by
  induction bits using List.reverseRecOn generalizing i with
  | nil => simp [bitsPoly]
  | append_singleton bits b ih =>
    rw [bitsPoly_append_singleton, List.reverse_append]
    cases i with
    | zero => cases b <;> simp
    | succ i => cases b <;> simp [ih, coeff_one]

theorem coeff_registerPoly {w : Nat} (v : BitVec w) (i : Nat) :
    (registerPoly v).coeff i = if v.getLsbD i then 1 else 0 := by
  have hbit : (registerBits v).reverse.getD i false = v.getLsbD i := by
    have hlen : (registerBits v).length = w := by simp [registerBits]
    by_cases hi : i < w
    · have hmsb : w - 1 - i < w := by omega
      have hback : w - 1 - (w - 1 - i) = i := by omega
      rw [List.getD_eq_getElem _ _ (by simpa [hlen] using hi)]
      simp [registerBits, BitVec.getMsbD, hmsb, hback]
    · rw [List.getD_eq_default _ _ (by simpa [hlen] using hi), BitVec.getLsbD_of_ge v i (by omega)]
  rw [registerPoly, coeff_bitsPoly, hbit]

theorem degree_registerPoly_lt {w : Nat} (v : BitVec w) : (registerPoly v).degree < w := by
  rw [degree_lt_iff_coeff_zero]
  intro i hi
  simp [coeff_registerPoly, BitVec.getLsbD_of_ge v i hi]

theorem registerPoly_xor {w : Nat} (u v : BitVec w) : registerPoly (u ^^^ v) = registerPoly u + registerPoly v := by
  ext i
  rw [coeff_add]
  simp only [coeff_registerPoly, BitVec.getLsbD_xor]
  cases u.getLsbD i <;> cases v.getLsbD i <;> decide

theorem registerPoly_zero (w : Nat) : registerPoly 0#w = 0 := by
  ext i
  simp [coeff_registerPoly]

theorem registerPoly_eq_zero {w : Nat} {v : BitVec w} : registerPoly v = 0 ↔ v = 0 := by
  constructor
  · intro h
    refine BitVec.eq_of_getLsbD_eq fun i _ => ?_
    have hi := congrArg (coeff · i) h
    simpa [coeff_registerPoly] using hi
  · rintro rfl
    exact registerPoly_zero w

/-- A shift to the left is a multiplication by `x` that loses the highest bit. -/
theorem registerPoly_shiftLeft_one {w : Nat} (v : BitVec w) :
    registerPoly (v <<< 1) = X * registerPoly v + if v.msb then X ^ w else 0 := by
  cases w with
  | zero =>
    obtain rfl : v = 0#0 := BitVec.eq_nil v
    simp [registerPoly_zero]
  | succ w =>
    ext i
    rw [coeff_add, coeff_registerPoly, BitVec.msb_eq_getLsbD_last, apply_ite (coeff · i), coeff_X_pow]
    cases i with
    | zero => simp
    | succ i =>
      rw [coeff_X_mul, coeff_registerPoly, BitVec.getLsbD_shiftLeft]
      rcases lt_trichotomy i w with hlt | rfl | hgt
      · simp [hlt, hlt.ne]
      · simp [CharTwo.add_self_eq_zero]
      · simp [hgt.not_gt, hgt.ne', hgt]

/-! ### The division (40_crc.md R103, R106) -/

/-- The divisor `x^w + poly`. -/
noncomputable def crcDivisor {w : Nat} (poly : BitVec w) : (ZMod 2)[X] := X ^ w + registerPoly poly

/-- The dividend `x^w · m(x) + init · x^(8n)`. -/
noncomputable def crcDividend {w : Nat} (init : BitVec w) (bits : List Bool) : (ZMod 2)[X] :=
  X ^ w * bitsPoly bits + registerPoly init * X ^ bits.length

theorem crcDivisor_monic {w : Nat} (poly : BitVec w) : (crcDivisor poly).Monic :=
  monic_X_pow_add (degree_registerPoly_lt poly)

theorem degree_registerPoly_lt_crcDivisor {w : Nat} (v poly : BitVec w) :
    (registerPoly v).degree < (crcDivisor poly).degree := by
  have hdegree : (crcDivisor poly).degree = w := by
    rw [crcDivisor, degree_add_eq_left_of_degree_lt, degree_X_pow]
    simpa using degree_registerPoly_lt poly
  rw [hdegree]
  exact degree_registerPoly_lt v

/-- One step multiplies by `x`, brings in the bit at `x^w`, and subtracts the divisor where `x^w` is left over. -/
theorem registerPoly_crcStep {w : Nat} (poly c : BitVec w) (b : Bool) :
    registerPoly (crcStep poly c b) =
      X * registerPoly c + (if b then X ^ w else 0) + if c.msb ^^ b then crcDivisor poly else 0 := by
  have hstep : registerPoly (crcStep poly c b) =
      registerPoly (c <<< 1) + if c.msb ^^ b then registerPoly poly else 0 := by
    rw [crcStep]
    split <;> simp [registerPoly_xor]
  have hdouble : (X ^ w + X ^ w : (ZMod 2)[X]) = 0 := CharTwo.add_self_eq_zero _
  rw [hstep, registerPoly_shiftLeft_one, crcDivisor]
  cases c.msb <;> cases b <;>
    simp only [Bool.xor_false, Bool.xor_true, Bool.not_true, Bool.not_false, Bool.false_eq_true, if_true, if_false]
  case false.true => linear_combination -hdouble
  case true.false => ring

theorem crcDividend_append_singleton {w : Nat} (init : BitVec w) (bits : List Bool) (b : Bool) :
    crcDividend init (bits ++ [b]) = X * crcDividend init bits + if b then X ^ w else 0 := by
  simp only [crcDividend, bitsPoly_append_singleton, List.length_append, List.length_singleton, mul_add, mul_ite,
    mul_one, mul_zero]
  ring

/-- Register and dividend are congruent after every bit. -/
theorem crcDivisor_dvd_dividend_sub_register {w : Nat} (poly init : BitVec w) (bits : List Bool) :
    crcDivisor poly ∣ crcDividend init bits - registerPoly (bits.foldl (crcStep poly) init) := by
  induction bits using List.reverseRecOn with
  | nil => simp [crcDividend, bitsPoly]
  | append_singleton bits b ih =>
    rw [List.foldl_append, List.foldl_cons, List.foldl_nil]
    generalize bits.foldl (crcStep poly) init = c at ih ⊢
    have hcarry : crcDivisor poly ∣ if c.msb ^^ b then crcDivisor poly else 0 := by split <;> simp
    have hsplit : crcDividend init (bits ++ [b]) - registerPoly (crcStep poly c b) =
        X * (crcDividend init bits - registerPoly c) - if c.msb ^^ b then crcDivisor poly else 0 := by
      rw [crcDividend_append_singleton, registerPoly_crcStep]
      ring
    rw [hsplit]
    exact dvd_sub (ih.mul_left X) hcarry

/-- The register after all bits is the remainder of the division. -/
theorem registerPoly_foldl_crcStep {w : Nat} (poly init : BitVec w) (bits : List Bool) :
    registerPoly (bits.foldl (crcStep poly) init) = crcDividend init bits %ₘ crcDivisor poly := by
  have hmonic := crcDivisor_monic poly
  rw [modByMonic_eq_of_dvd_sub hmonic (crcDivisor_dvd_dividend_sub_register poly init bits)]
  exact ((modByMonic_eq_self_iff hmonic).2 (degree_registerPoly_lt_crcDivisor _ poly)).symm

theorem foldl_crcStep_eq_zero {w : Nat} {poly init : BitVec w} {bits : List Bool} :
    bits.foldl (crcStep poly) init = 0 ↔ crcDivisor poly ∣ crcDividend init bits := by
  rw [← registerPoly_eq_zero, registerPoly_foldl_crcStep, modByMonic_eq_zero_iff_dvd (crcDivisor_monic poly)]

/-! ### What the operations return (40_crc.md R100, R101, R104, R105) -/

theorem crc5_eq_foldl (cfg : Cfg) (data : Bytes) :
    crc5 cfg data = (dataBits .msbFirst data).foldl (crcStep cfg.crc5Poly) cfg.crc5Init ^^^ cfg.crc5XorOut := by
  rw [crc5, step5_eq_crcStep, bitOrder_eq_msbFirst cfg.bitOrder]

theorem crc16_eq_foldl (cfg : Cfg) (data : Bytes) :
    crc16 cfg data = (dataBits .msbFirst data).foldl (crcStep cfg.crc16Poly) cfg.crc16Init ^^^ cfg.crc16XorOut := by
  rw [crc16, step16_eq_crcStep, bitOrder_eq_msbFirst cfg.bitOrder]

theorem crc5_eq_foldl_of_xorOut_zero {cfg : Cfg} (hout : cfg.crc5XorOut = 0) (data : Bytes) :
    crc5 cfg data = (dataBits .msbFirst data).foldl (crcStep cfg.crc5Poly) cfg.crc5Init := by
  rw [crc5_eq_foldl, hout]
  exact BitVec.xor_zero

theorem crc16_eq_foldl_of_xorOut_zero {cfg : Cfg} (hout : cfg.crc16XorOut = 0) (data : Bytes) :
    crc16 cfg data = (dataBits .msbFirst data).foldl (crcStep cfg.crc16Poly) cfg.crc16Init := by
  rw [crc16_eq_foldl, hout]
  exact BitVec.xor_zero

theorem exec_crc5 {s : State} (hlive : s.fault = none) (data : Bytes) :
    exec (.crc5 data) s = .next (returning s (.crc5 (crc5 s.inst.cfg data))) :=
  whenLive_live hlive

theorem exec_crc16 {s : State} (hlive : s.fault = none) (data : Bytes) :
    exec (.crc16 data) s = .next (returning s (.crc16 (crc16 s.inst.cfg data))) :=
  whenLive_live hlive

/-- Settles O1: the statement is `crc5` with its one bit order and its step written out. -/
theorem crc5ReturnsRegisterAfterAllBits : Obligations.Crc5ReturnsRegisterAfterAllBits := by
  intro s data
  refine ⟨fun hlive => ?_, fun f hf => exec_faulted (by simp) hf⟩
  rw [exec_crc5 hlive, crc5, bitOrder_eq_msbFirst s.inst.cfg.bitOrder]
  rfl

/-- Settles O2: the statement is `crc16` with its one bit order and its step written out. -/
theorem crc16ReturnsRegisterAfterAllBits : Obligations.Crc16ReturnsRegisterAfterAllBits := by
  intro s data
  refine ⟨fun hlive => ?_, fun f hf => exec_faulted (by simp) hf⟩
  rw [exec_crc16 hlive, crc16, bitOrder_eq_msbFirst s.inst.cfg.bitOrder]
  rfl

/-- Settles O3: the remainder of `registerPoly_foldl_crcStep` at width 5. -/
theorem crc5IsPolynomialRemainder : Obligations.Crc5IsPolynomialRemainder := by
  intro s data hlive hout
  refine ⟨_, _, exec_crc5 hlive data, rfl, ?_⟩
  rw [crc5_eq_foldl_of_xorOut_zero hout, ← length_dataBits .msbFirst]
  exact registerPoly_foldl_crcStep ..

/-- Settles O4: the same at width 16. -/
theorem crc16IsPolynomialRemainder : Obligations.Crc16IsPolynomialRemainder := by
  intro s data hlive hout
  refine ⟨_, _, exec_crc16 hlive data, rfl, ?_⟩
  rw [crc16_eq_foldl_of_xorOut_zero hout, ← length_dataBits .msbFirst]
  exact registerPoly_foldl_crcStep ..

/-! ### The residue (40_crc.md R107) -/

/-- Dividing the bits of `v` behind the register `c` is dividing `x^w · (c + v)`. -/
theorem crcDividend_registerBits {w : Nat} (c v : BitVec w) :
    crcDividend c (registerBits v) = X ^ w * registerPoly (c ^^^ v) := by
  have hlen : (registerBits v).length = w := by simp [registerBits]
  rw [crcDividend, hlen, registerPoly_xor, registerPoly, registerPoly]
  ring

/-- A register that is fed its own bits ends at 0. -/
theorem foldl_crcStep_registerBits_self {w : Nat} (poly c : BitVec w) :
    (registerBits c).foldl (crcStep poly) c = 0 := by
  rw [foldl_crcStep_eq_zero, crcDividend_registerBits, BitVec.xor_self, registerPoly_zero, mul_zero]
  exact dvd_zero _

theorem isCoprime_crcDivisor_X {w : Nat} {poly : BitVec w} (hw : w ≠ 0) (hconst : poly.getLsbD 0 = true) :
    IsCoprime (crcDivisor poly) X := by
  refine (irreducible_X.coprime_iff_not_dvd.2 fun hdvd => ?_).symm
  have hzero := X_dvd_iff.1 hdvd
  simp [crcDivisor, coeff_X_pow, coeff_registerPoly, hconst, hw.symm] at hzero

/-- If the divisor has a constant term, `x` can be cancelled: only its own bits bring a register to 0. -/
theorem eq_of_foldl_crcStep_registerBits {w : Nat} {poly c v : BitVec w} (hw : w ≠ 0)
    (hconst : poly.getLsbD 0 = true) (h : (registerBits v).foldl (crcStep poly) c = 0) : v = c := by
  rw [foldl_crcStep_eq_zero, crcDividend_registerBits] at h
  have hdvd : crcDivisor poly ∣ registerPoly (c ^^^ v) :=
    ((isCoprime_crcDivisor_X hw hconst).pow_right).dvd_of_dvd_mul_left h
  have hzero := eq_zero_of_dvd_of_degree_lt hdvd (degree_registerPoly_lt_crcDivisor _ poly)
  exact (BitVec.xor_eq_zero_iff.1 (registerPoly_eq_zero.1 hzero)).symm

/-- The check bytes are divided from the register that the data left. -/
theorem crc16_append_be16 {cfg : Cfg} (hout : cfg.crc16XorOut = 0) (data : Bytes) (v : BitVec 16) :
    crc16 cfg (data ++ be16 v) = (registerBits v).foldl (crcStep cfg.crc16Poly) (crc16 cfg data) := by
  simp only [crc16_eq_foldl_of_xorOut_zero hout, dataBits_append, dataBits_be16, List.foldl_append]

/-- Settles O5: the check bytes are the register's own bits. -/
theorem crc16ResidueIsZero : Obligations.Crc16ResidueIsZero := by
  intro cfg data c0 c1 hout
  rw [← be16_append c0 c1, crc16_append_be16 hout, crc16_append_be16 hout]
  refine ⟨foldl_crcStep_registerBits_self _ _, fun hconst hzero => ?_⟩
  rw [eq_of_foldl_crcStep_registerBits (by decide) hconst hzero]

/-! ### The affine law (40_crc.md R110) -/

/-- The law at any width, the zeros written as `b ⊕ b`. -/
theorem foldl_crcStep_affine {w : Nat} (poly init out : BitVec w) {as bs : List Bool}
    (hlen : as.length = bs.length) :
    (List.zipWith (· ^^ ·) as bs).foldl (crcStep poly) init ^^^ out =
      (as.foldl (crcStep poly) init ^^^ out) ^^^ (bs.foldl (crcStep poly) init ^^^ out) ^^^
        ((List.zipWith (· ^^ ·) bs bs).foldl (crcStep poly) init ^^^ out) := by
  have hab := foldl_crcStep_xor poly init 0#w hlen
  have hbb := foldl_crcStep_xor poly init 0#w (rfl : bs.length = bs.length)
  rw [BitVec.xor_zero] at hab hbb
  rw [hab, hbb]
  refine BitVec.eq_of_getLsbD_eq fun i _ => ?_
  simp only [BitVec.getLsbD_xor]
  grind

/-- Settles O6: both CRCs are the fold of one affine step, and the zeros are `b ⊕ b`. -/
theorem crcOfXorIsXorOfCrcs : Obligations.CrcOfXorIsXorOfCrcs := by
  intro cfg a b hlen
  have hbits : (dataBits .msbFirst a).length = (dataBits .msbFirst b).length := by simp [hlen]
  have hzero : dataBits .msbFirst (List.replicate a.length 0) =
      List.zipWith (· ^^ ·) (dataBits .msbFirst b) (dataBits .msbFirst b) := by
    rw [hlen, ← zipWith_xor_self, dataBits_zipWith_xor _ rfl]
  simp only [crc5_eq_foldl, crc16_eq_foldl, dataBits_zipWith_xor _ hlen, hzero]
  exact ⟨foldl_crcStep_affine _ _ _ hbits, foldl_crcStep_affine _ _ _ hbits⟩

end Sys2Proof.Machine

/-! PROOFS. The family 41_encoder.md: each encoder operation sends its frame (R122 to R137), what all of them leave
alone and depend on (R120), and that the frames tell the commands apart (R138). -/

namespace Sys2Proof.Machine

/-! ### What the encoder operations leave alone (41_encoder.md R120) -/

/-- Every operation but DEC_STATUS has a next state in a live block only. -/
theorem fault_eq_none_of_exec {i : Instr} {s t : State} (hi : i ≠ .decStatus) (h : exec i s = .next t) :
    s.fault = none := by
  obtain ⟨k, hk⟩ := exec_eq_whenLive hi s
  exact (whenLive_eq_next.1 (hk ▸ h)).1

theorem ne_decStatus_of_isEncoder {i : Instr} (hi : isEncoder i = true) : i ≠ .decStatus := by
  rintro rfl
  cases hi

/-- Settles O18: of the effects an operation can have, an encoder's are `emit`, `raiseError` and `takeFault`. -/
theorem encoderFrame : Obligations.EncoderFrame := by
  intro i s t hi h
  have hlive := fault_eq_none_of_exec (ne_decStatus_of_isEncoder hi) h
  cases exec_effect h with
  | sends _ out => exact ⟨rfl, rfl, rfl, rfl, rfl, rfl, rfl, .inl ⟨out, rfl, rfl, hlive⟩⟩
  | raises _ e =>
    obtain ⟨op⟩ := e
    exact ⟨rfl, rfl, rfl, rfl, rfl, rfl, rfl, .inr (.inl ⟨op, rfl, rfl, hlive⟩)⟩
  | faults _ hn => exact ⟨rfl, rfl, rfl, rfl, rfl, rfl, rfl, .inr (.inr ⟨_, rfl, rfl, rfl, hn⟩)⟩
  | crc5 | crc16 | pushes | scans | polls | parses | resets | status => cases hi

/-! ### What the encoder operations depend on (41_encoder.md R120, 70_reset_and_hazards.md R232, R237) -/

/-- Two states that an encoder operation cannot tell apart. -/
structure SameEncoderInputs (s u : State) : Prop where
  fault : s.fault = u.fault
  cfg : s.inst.cfg = u.inst.cfg
  cap : s.inst.cap = u.inst.cap

/-- Where the first answer is a next state, so is the second, and both return the same. -/
def ReturnsAlike (a b : Answer) : Prop := ∀ t, a = .next t → ∃ v, b = .next v ∧ v.result = t.result

theorem whenLive_returnsAlike {s u s' u' : State} (h : SameEncoderInputs s u) (hresult : u'.result = s'.result) :
    ReturnsAlike (whenLive s (.next s')) (whenLive u (.next u')) := by
  intro t ht
  obtain ⟨hlive, hnext⟩ := whenLive_eq_next.1 ht
  obtain rfl := Host.Outcome.next.inj hnext
  exact ⟨u', whenLive_live (h.fault ▸ hlive), hresult⟩

theorem encodeControl_returnsAlike {t : Byte} {p : Bytes} {s u : State} (h : SameEncoderInputs s u) :
    ReturnsAlike (encodeControl t p s) (encodeControl t p u) :=
  whenLive_returnsAlike h (by simp [h.cfg])

theorem encodeLong_returnsAlike {before : Bytes} {pre : Preamble} {t : Byte} {p : Bytes} {s u : State}
    (h : SameEncoderInputs s u) : ReturnsAlike (encodeLong before pre t p s) (encodeLong before pre t p u) := by
  refine whenLive_returnsAlike h ?_
  rw [h.cfg]
  cases frameC16 u.inst.cfg pre t p <;> rfl

theorem execEncBaud_returnsAlike {s u : State} (h : SameEncoderInputs s u) (rate : Nat) :
    ReturnsAlike (execEncBaud rate s) (execEncBaud rate u) := by
  refine whenLive_returnsAlike h ?_
  rw [h.cap]
  cases baudWriteOf u.inst.cap rate with
  | none => rfl
  | some w => simp [h.cfg]

theorem execEncJob_returnsAlike {s u : State} (h : SameEncoderInputs s u) (jobId : Byte) (work : Bytes)
    (mask : Option (BitVec 32)) : ReturnsAlike (execEncJob jobId work mask s) (execEncJob jobId work mask u) := by
  cases mask with
  | none =>
    simp only [execEncJob, h.cfg]
    exact encodeLong_returnsAlike h
  | some m =>
    simp only [execEncJob, h.cfg, h.cap]
    split
    · exact encodeLong_returnsAlike h
    · exact whenLive_returnsAlike h rfl

theorem exec_returnsAlike {i : Instr} {s u : State} (hi : isEncoder i = true) (h : SameEncoderInputs s u) :
    ReturnsAlike (exec i s) (exec i u) := by
  cases i with
  | encSetaddr | encInactive | encRead | encWrite | frameSetaddr | frameWriteRegU | frameWriteRegB | frameReadRegU
  | frameReadRegB | frameChainInactive => exact encodeControl_returnsAlike h
  | encBaud rate => exact execEncBaud_returnsAlike h rate
  | encJob jobId work mask => exact execEncJob_returnsAlike h jobId work mask
  | frameJob jobId work => exact execEncJob_returnsAlike h jobId work none
  | encRreg addr reg value | frameRespReg addr reg value =>
    simp only [exec, execEncRreg, execFrameRespReg, h.cfg]
    exact encodeLong_returnsAlike h
  | encRjob jobId addr nonce version | frameRespJob jobId addr nonce version =>
    simp only [exec, execEncRjob, execFrameRespJob, h.cfg]
    exact encodeLong_returnsAlike h
  | crc5 | crc16 | decPush | decStep | decPoll | decParse | decReset | decStatus => cases hi

/-- Settles O19, instruction by instruction: fault, `Cfg` and `CAP` are all that the shared operations read. -/
theorem encoderOutputDependsOnOperandsOnly : Obligations.EncoderOutputDependsOnOperandsOnly :=
  fun _ _ _ t hi hfault hcfg hcap h => exec_returnsAlike hi ⟨hfault, hcfg, hcap⟩ t h

/-! ### The operations a pseudo-command expands to (41_encoder.md R128, R133) -/

/-- ENC_BAUD is the broadcast write its rate expands to (30_encoding.md R93). -/
theorem exec_encBaud_of_some {s : State} {rate : Nat} {w : RegWrite} (hw : baudWriteOf s.inst.cap rate = some w) :
    exec (.encBaud rate) s = exec (.encWrite .broadcast 0 w.reg w.value) s := by
  change execEncBaud rate s = _
  rw [execEncBaud, hw]
  rfl

theorem exec_encBaud_of_none {s : State} {rate : Nat} (hw : baudWriteOf s.inst.cap rate = none) :
    exec (.encBaud rate) s = whenLive s (.next (raiseError s (.unsupportedCapability 0x14))) := by
  change execEncBaud rate s = _
  rw [execEncBaud, hw]

/-- ENC_JOB with a mask is its register write and the job frame, in one append. -/
theorem exec_encJob_of_supported {s : State} (hvr : s.inst.cap.vrSupported = true) (jobId : Byte) (work : Bytes)
    (m : BitVec 32) :
    exec (.encJob jobId work (some m)) s =
      encodeLong (broadcastWrite s.inst.cfg (vrWriteOf s.inst.cap m)) s.inst.cfg.preCmd hJob (jobId :: work) s :=
  if_pos hvr

theorem exec_encJob_of_unsupported {s : State} (hvr : s.inst.cap.vrSupported = false) (jobId : Byte) (work : Bytes)
    (m : BitVec 32) :
    exec (.encJob jobId work (some m)) s = whenLive s (.next (raiseError s (.unsupportedCapability 0x15))) :=
  if_neg (by simp [hvr])

/-! ### The frames tell the commands apart (41_encoder.md R138)

DEC_PARSE reads no state, so it is a left inverse of every encoder of a non-pseudo command, whatever the configurations
of the two encoders are. -/

theorem byteAt_two (a b t : Byte) (rest : Bytes) : byteAt (a :: b :: t :: rest) 2 = t := rfl

theorem lengthOf_cons_ofNat {a b t : Byte} {rest : Bytes} {l : Nat} (hl : l < 256) :
    lengthOf (a :: b :: t :: BitVec.ofNat 8 l :: rest) = l := by
  simp [lengthOf, byteAt, Nat.mod_eq_of_lt hl]

/-- The payload stands between the four bytes before it and the check bytes (30_encoding.md R62). -/
theorem slice_payload (a b t l : Byte) (p check : Bytes) :
    slice (a :: b :: t :: l :: (p ++ check)) 4 (p.length + 4) = p := by
  simp [slice]

/-- The parse of a control frame's bytes around any preamble and check byte (42_decoder.md R171). -/
theorem parse_control_bytes {a b t check : Byte} {p : Bytes} (ht : cls t = some .c5) (hp : 3 + p.length < 256) :
    parse (a :: b :: t :: BitVec.ofNat 8 (3 + p.length) :: (p ++ [check])) = parseControl t (3 + p.length) p := by
  have hend : 2 + (3 + p.length) - 1 = p.length + 4 := by omega
  simp only [parse, payload, byteAt_two, ht, lengthOf_cons_ofNat hp, hend, slice_payload]

/-- The parse of a long frame's bytes around any preamble and check bytes (42_decoder.md R171). -/
theorem parse_long_bytes {a b t c0 c1 : Byte} {p : Bytes} (ht : cls t = some .c16) (hp : 4 + p.length < 256) :
    parse (a :: b :: t :: BitVec.ofNat 8 (4 + p.length) :: (p ++ [c0, c1])) = parseLong t (4 + p.length) p := by
  have hend : 2 + (4 + p.length) - 2 = p.length + 4 := by omega
  simp only [parse, payload, byteAt_two, ht, lengthOf_cons_ofNat hp, hend, slice_payload]

theorem parse_frameC5 {cfg : Cfg} {t : Byte} {p : Bytes} (ht : cls t = some .c5) (hp : 3 + p.length < 256) :
    parse (frameC5 cfg t p) = parseControl t (3 + p.length) p :=
  parse_control_bytes ht hp

/-- LMAX is a byte, so the length of a long frame that is built always fits its length byte. -/
theorem parse_of_frameC16_eq_ok {cfg : Cfg} {pre : Preamble} {t : Byte} {p out : Bytes} (ht : cls t = some .c16)
    (h : frameC16 cfg pre t p = .ok out) : parse out = parseLong t (4 + p.length) p := by
  have hlmax := cfg.lmax.isLt
  rcases frameC16_cases cfg pre t p with ⟨hle, hok⟩ | ⟨_, herror⟩
  · obtain rfl := Except.ok.inj (hok.symm.trans h)
    simpa [preambleBytes, be16] using parse_long_bytes (p := p) ht (by omega)
  · simp [herror] at h

/-- What an operation of one control frame returns parses as its header and payload do. -/
theorem parse_of_encodeControl {t : Byte} {p out : Bytes} {s u : State} (ht : cls t = some .c5)
    (hp : 3 + p.length < 256) (h : encodeControl t p s = .next u) (hout : u.result = some (.bytes out)) :
    parse out = parseControl t (3 + p.length) p := by
  obtain ⟨_, rfl⟩ := encodeControl_eq_next.1 h
  obtain rfl : frameC5 s.inst.cfg t p = out := by simpa using hout
  exact parse_frameC5 ht hp

/-- What an operation of one long frame alone returns parses as its header and payload do. -/
theorem parse_of_encodeLong {pre : Preamble} {t : Byte} {p out : Bytes} {s u : State} (ht : cls t = some .c16)
    (h : encodeLong [] pre t p s = .next u) (hout : u.result = some (.bytes out)) :
    parse out = parseLong t (4 + p.length) p := by
  obtain ⟨_, ⟨frame, hframe, rfl⟩ | ⟨f, _, rfl⟩⟩ := encodeLong_eq_next.1 h
  · obtain rfl : frame = out := by simpa using hout
    exact parse_of_frameC16_eq_ok ht hframe
  · simp at hout

theorem cls_readFrame (mode : Mode) (addr reg : Byte) : cls (readFrame mode addr reg).1 = some .c5 := by
  cases mode with
  | unicast => exact (rfl : cls hReadRegU = some .c5)
  | broadcast => exact (rfl : cls hReadRegB = some .c5)

@[simp] theorem length_readFrame (mode : Mode) (addr reg : Byte) : (readFrame mode addr reg).2.length = 2 := by
  cases mode <;> rfl

theorem parseControl_readFrame (mode : Mode) {addr : Byte} (haddr : addrFits mode addr = true) (reg : Byte) :
    parseControl (readFrame mode addr reg).1 5 (readFrame mode addr reg).2 = .cmd (.readRegister mode addr reg) := by
  cases mode with
  | unicast =>
    simp [readFrame, parseControl, show hReadRegU ≠ hSetaddr by decide, show hReadRegU ≠ hChainInactive by decide]
  | broadcast =>
    obtain rfl : addr = 0 := by simpa [addrFits] using haddr
    simp [readFrame, parseControl, show hReadRegB ≠ hSetaddr by decide, show hReadRegB ≠ hChainInactive by decide,
      show hReadRegB ≠ hReadRegU by decide]

theorem cls_writeFrame (mode : Mode) (addr reg : Byte) (value : BitVec 32) :
    cls (writeFrame mode addr reg value).1 = some .c5 := by
  cases mode with
  | unicast => exact (rfl : cls hWriteRegU = some .c5)
  | broadcast => exact (rfl : cls hWriteRegB = some .c5)

@[simp] theorem length_writeFrame (mode : Mode) (addr reg : Byte) (value : BitVec 32) :
    (writeFrame mode addr reg value).2.length = 6 := by
  cases mode <;> rfl

theorem parseControl_writeFrame (mode : Mode) {addr : Byte} (haddr : addrFits mode addr = true) (reg : Byte)
    (value : BitVec 32) :
    parseControl (writeFrame mode addr reg value).1 9 (writeFrame mode addr reg value).2 =
      .cmd (.writeRegister mode addr reg value) := by
  have hvalue := u32be_be32 value
  cases mode with
  | unicast => simp [writeFrame, writePayload, be32, parseControl, hvalue]
  | broadcast =>
    obtain rfl : addr = 0 := by simpa [addrFits] using haddr
    simp [writeFrame, writePayload, be32, parseControl, hvalue, show hWriteRegB ≠ hWriteRegU by decide]

theorem parseLong_job (jobId : Byte) (work : Bytes) :
    parseLong hJob (4 + (jobId :: work).length) (jobId :: work) = .cmd (.submitJob jobId work none) := by
  rw [four_add_length_cons]
  simp [parseLong]

/-- The parse of the bytes a non-pseudo command's encoder returns is the command (42_decoder.md R171, R177). -/
theorem parse_of_exec_command {c : Command} {s t : State} {out : Bytes} (hc : (instrOfCommand c).wellFormed = true)
    (hbaud : ∀ rate, c ≠ .setBaudRate rate) (hmask : ∀ j w m, c ≠ .submitJob j w (some m))
    (h : exec (instrOfCommand c) s = .next t) (hout : t.result = some (.bytes out)) : parse out = .cmd c := by
  cases c with
  | setChipAddress addr => exact parse_of_encodeControl rfl (by simp) h hout
  | chainInactive => exact parse_of_encodeControl rfl (by simp) h hout
  | readRegister mode addr reg =>
    rw [parse_of_encodeControl (cls_readFrame mode addr reg) (by simp) h hout, length_readFrame]
    exact parseControl_readFrame mode hc reg
  | writeRegister mode addr reg value =>
    rw [parse_of_encodeControl (cls_writeFrame mode addr reg value) (by simp) h hout, length_writeFrame]
    exact parseControl_writeFrame mode hc reg value
  | setBaudRate rate => exact absurd rfl (hbaud rate)
  | submitJob jobId work mask =>
    cases mask with
    | none => rw [parse_of_encodeLong rfl h hout, parseLong_job]
    | some m => exact absurd rfl (hmask jobId work m)

/-- Settles O20: equal bytes have equal parses, a broadcast's frame does not hold the address, and ENC_BAUD is its
expansion. -/
theorem commandEncodersAreInjective : Obligations.CommandEncodersAreInjective := by
  refine ⟨fun c d s t u out hc hd hcbaud hdbaud hcmask hdmask hcexec hdexec ht hu => ?_,
    fun s a b reg value => ⟨rfl, rfl⟩, fun s rate w hw => exec_encBaud_of_some hw⟩
  have hparse_c := parse_of_exec_command hc hcbaud hcmask hcexec ht
  have hparse_d := parse_of_exec_command hd hdbaud hdmask hdexec hu
  exact Parsed.cmd.inj (hparse_c.symm.trans hparse_d)

/-! ### Each operation sends its frame (41_encoder.md R122 to R137) -/

/-- Settles O7: one control frame, or the fault prelude. -/
theorem encSetaddrSendsItsFrame : Obligations.EncSetaddrSendsItsFrame :=
  fun _ addr => ⟨fun hlive => encodeControl_live hlive hSetaddr [addr, 0], fun _ hf => exec_faulted (by simp) hf⟩

/-- Settles O8: one control frame, or the fault prelude. -/
theorem encInactiveSendsItsFrame : Obligations.EncInactiveSendsItsFrame :=
  fun _ => ⟨fun hlive => encodeControl_live hlive hChainInactive [0, 0], fun _ hf => exec_faulted (by simp) hf⟩

/-- Settles O9: the two modes are two headers. -/
theorem encReadSendsItsFrame : Obligations.EncReadSendsItsFrame :=
  fun _ addr reg =>
    ⟨fun hlive => ⟨encodeControl_live hlive hReadRegU [addr, reg], encodeControl_live hlive hReadRegB [0, reg]⟩,
      fun _ _ hf => exec_faulted (by simp) hf⟩

/-- Settles O10: each mode is the operation of its wire row. -/
theorem encWriteSendsItsFrame : Obligations.EncWriteSendsItsFrame := by
  intro s addr reg v3 v2 v1 v0
  refine ⟨fun hlive => ?_, fun _ _ hf => exec_faulted (by simp) hf⟩
  obtain ⟨_, hunicast, hbroadcast, _⟩ := controlFrameRowsSendTheirFrame s addr reg v3 v2 v1 v0 hlive
  exact ⟨hunicast, hbroadcast⟩

/-- Settles O11: a rate the capability realises is a broadcast write. -/
theorem encBaudFollowsItsRule : Obligations.EncBaudFollowsItsRule := by
  intro s rate
  refine ⟨fun hlive => ⟨fun reg v3 v2 v1 v0 hw => ?_, fun hw => ?_⟩, fun _ hf => exec_faulted (by simp) hf⟩
  · obtain ⟨_, hbroadcast⟩ := (encWriteSendsItsFrame s 0 reg v3 v2 v1 v0).1 hlive
    rw [exec_encBaud_of_some hw, hbroadcast]
  · rw [exec_encBaud_of_none hw, whenLive_live hlive]
    rfl

/-- A job frame within LMAX is sent behind the bytes before it. -/
theorem encodeLong_job_of_le {s : State} (hlive : s.fault = none) (before : Bytes) (jobId : Byte) {work : Bytes}
    (hle : 5 + work.length ≤ s.inst.cfg.lmax.toNat) :
    encodeLong before s.inst.cfg.preCmd hJob (jobId :: work) s =
      .next (sent s (before ++ longFrame s.inst.cfg s.inst.cfg.preCmd (jobBody jobId work))) := by
  rw [← four_add_length_cons jobId] at hle
  rw [encodeLong_live_of_le hlive before _ hJob hle, four_add_length_cons]
  rfl

/-- A job frame beyond LMAX takes the fault, whatever bytes were to stand before it. -/
theorem encodeLong_job_of_lt {s : State} (hlive : s.fault = none) (before : Bytes) (jobId : Byte) {work : Bytes}
    (hlt : s.inst.cfg.lmax.toNat < 5 + work.length) :
    encodeLong before s.inst.cfg.preCmd hJob (jobId :: work) s = .next (tooLong s (5 + work.length)) := by
  rw [← four_add_length_cons jobId] at hlt ⊢
  exact encodeLong_live_of_lt hlive before _ hJob hlt

/-- The register write in front of a masked job, its value written as bytes. -/
theorem broadcastWrite_append (cfg : Cfg) (reg v3 v2 v1 v0 : Byte) :
    broadcastWrite cfg ⟨reg, v3 ++ v2 ++ v1 ++ v0⟩ = controlFrame cfg [0x51, 0x09, 0x00, reg, v3, v2, v1, v0] := by
  rw [broadcastWrite, writePayload_append]
  rfl

/-- Settles O12, check by check in the order of R134. -/
theorem encJobFollowsItsRule : Obligations.EncJobFollowsItsRule := by
  intro s jobId work
  refine ⟨fun _ _ hf => exec_faulted (by simp) hf, fun m hlive hvr => ?_, fun mask hlive hmask hlt => ?_,
    fun hlive hle => ?_, fun m reg v3 v2 v1 v0 hlive hvr hw hle => ?_⟩
  · rw [exec_encJob_of_unsupported hvr, whenLive_live hlive]
    rfl
  · cases mask with
    | none => exact encodeLong_job_of_lt hlive [] jobId hlt
    | some m =>
      have hvr : s.inst.cap.vrSupported = true := by simpa using hmask
      rw [exec_encJob_of_supported hvr, encodeLong_job_of_lt hlive _ jobId hlt]
  · exact encodeLong_job_of_le hlive [] jobId hle
  · rw [exec_encJob_of_supported hvr, encodeLong_job_of_le hlive _ jobId hle, hw, broadcastWrite_append]

/-- Settles O13: ENC_RREG is the operation of its wire row. -/
theorem encRregSendsItsFrame : Obligations.EncRregSendsItsFrame := by
  intro s addr reg v3 v2 v1 v0 hle
  refine ⟨fun hlive => ?_, fun _ hf => exec_faulted (by simp) hf⟩
  obtain ⟨_, _, hreg, _⟩ := longFrameRowsSendTheirFrame s addr reg v3 v2 v1 v0 0 0 [] hlive
  exact hreg hle

/-- Settles O14: ENC_RJOB is the operation of its wire row. -/
theorem encRjobSendsItsFrame : Obligations.EncRjobSendsItsFrame := by
  intro s jobId addr n3 n2 n1 n0 r1 r0 hle
  refine ⟨fun hlive => ?_, fun _ hf => exec_faulted (by simp) hf⟩
  obtain ⟨_, _, _, hjob⟩ := longFrameRowsSendTheirFrame s jobId addr n3 n2 n1 n0 r1 r0 [] hlive
  exact hjob hle

/-- Settles O15: an operation and its row are the same `encodeLong`, whose length is beyond LMAX. -/
theorem responseBeyondLmaxFaults : Obligations.ResponseBeyondLmaxFaults := by
  intro s a b v w hlive
  refine ⟨fun hlt => ?_, fun hlt => ?_⟩
  · have hfault := encodeLong_live_of_lt hlive [] s.inst.cfg.preRsp hRespReg (p := a :: b :: be32 v) hlt
    exact ⟨hfault, hfault⟩
  · have hfault := encodeLong_live_of_lt hlive [] s.inst.cfg.preRsp hRespJob (p := a :: b :: (be32 v ++ be16 w)) hlt
    exact ⟨hfault, hfault⟩

end Sys2Proof.Machine

/-! PROOFS. The family 42_decoder.md: the scan step case by case (R162 to R168), the loop of DEC_POLL (R169, R172, R176),
the parse (R171, R180), and the laws of the decoder (R177, R178, R179, R182). The laws all rest on `drain`, polling until
NeedMore, read one scan step at a time. -/

namespace Sys2Proof.Machine

/-! ### What the answer of a scan step says (42_decoder.md R165, R166, R176) -/

theorem reject_snd_ne_needMore (s : State) : (reject s).2 ≠ .needMore := by
  rcases reject_snd s with ⟨h, _⟩ | ⟨k, h, _⟩ <;> simp [h]

theorem reject_snd_ne_frame (s : State) (f : Bytes) : (reject s).2 ≠ .frame f := by
  rcases reject_snd s with ⟨h, _⟩ | ⟨k, h, _⟩ <;> simp [h]

/-- NeedMore changes no state (42_decoder.md R165). -/
theorem scanStep_eq_self {s : State} (h : (scanStep s).2 = .needMore) : scanStep s = (s, .needMore) := by
  rcases scanStep_cases s with h' | ⟨h', _⟩ | ⟨h', _⟩ | ⟨f, rest, _, _, h'⟩
  · exact h'
  · simp [h'] at h
  · exact absurd (h' ▸ h) (reject_snd_ne_needMore s)
  · simp [h'] at h

theorem acceptedFrame_length_pos {i : Instance} {f : Bytes} (hf : acceptedFrame i f = true) : 0 < f.length := by
  obtain ⟨t, l, rest, c, rfl, _⟩ := acceptedFrame_eq_true.1 hf
  simp

/-- Every answer but NeedMore takes a byte from the buffer. -/
theorem scanStep_rx_length_lt {s t : State} {r : StepResult} (h : scanStep s = (t, r)) (hr : r ≠ .needMore) :
    t.rx.length < s.rx.length := by
  rcases scanStep_cases s with h' | ⟨h', hne⟩ | ⟨h', hne⟩ | ⟨f, rest, hrx, hf, h'⟩ <;>
    obtain ⟨rfl, rfl⟩ := Prod.mk.inj (h.symm.trans h')
  · exact absurd rfl hr
  · simpa using List.length_pos_iff.2 hne
  · simpa using List.length_pos_iff.2 hne
  · simpa [hrx] using acceptedFrame_length_pos hf

theorem fault_of_scanStep {s t : State} {r : StepResult} (h : scanStep s = (t, r)) : t.fault = s.fault := by
  simpa [h] using (scanStep_frame s).fault

/-- The induction that goes with scanning to the end: a property of every state that needs more bytes, kept backwards
along every other step, holds of every state. -/
theorem scan_induction {P : State → Prop} (stop : ∀ s, scanStep s = (s, .needMore) → P s)
    (go : ∀ s t r, scanStep s = (t, r) → r ≠ .needMore → P t → P s) (s : State) : P s := by
  induction hn : s.rx.length using Nat.strong_induction_on generalizing s with
  | _ n ih =>
    by_cases h : (scanStep s).2 = .needMore
    · exact stop s (scanStep_eq_self h)
    · exact go s _ _ rfl h (ih _ (hn ▸ scanStep_rx_length_lt rfl h) _ rfl)

/-- The rule of DEC_STEP in a live block. -/
theorem exec_decStep {s : State} (hlive : s.fault = none) :
    exec .decStep s = .next (returning (scanStep s).1 (.scan (scanStep s).2)) :=
  whenLive_live hlive

theorem exec_decStep_eq_next {s t : State} :
    exec .decStep s = .next t ↔ s.fault = none ∧ t = returning (scanStep s).1 (.scan (scanStep s).2) := by
  change whenLive s _ = _ ↔ _
  rw [whenLive_eq_next, Host.Outcome.next.injEq, eq_comm (a := t)]

theorem exec_decStep_of_scan {s t : State} {r : StepResult} (hlive : s.fault = none) (h : scanStep s = (t, r)) :
    exec .decStep s = .next (returning t (.scan r)) := by
  rw [exec_decStep hlive, h]

/-! ### DEC_PUSH (42_decoder.md R170, R181) -/

theorem fitsCapacity_eq_true {capacity : Option Nat} {n : Nat} :
    fitsCapacity capacity n = true ↔ ∀ c, capacity = some c → n ≤ c := by
  cases capacity <;> simp [fitsCapacity]

theorem exec_decPush_of_fits {s : State} {data : Bytes} (hlive : s.fault = none)
    (hfits : fitsCapacity s.inst.rxCapacity (s.rx.length + data.length) = true) :
    exec (.decPush data) s = .next (returning (pushBytes s data) .done) := by
  change whenLive s _ = _
  rw [whenLive_live hlive, if_pos hfits]

theorem exec_decPush_of_not_fits {s : State} {data : Bytes} (hlive : s.fault = none)
    (hfits : fitsCapacity s.inst.rxCapacity (s.rx.length + data.length) ≠ true) :
    exec (.decPush data) s = .fault .pushOverCapacity := by
  change whenLive s _ = _
  rw [whenLive_live hlive, if_neg hfits]

/-- Settles O21: the capacity test of R181 decides, behind the fault prelude. -/
theorem decPushFollowsItsRule : Obligations.DecPushFollowsItsRule := by
  intro s data
  refine ⟨fun hlive hfits => exec_decPush_of_fits hlive (fitsCapacity_eq_true.2 hfits), fun n hlive hn hlt => ?_,
    fun _ hf => exec_faulted (by simp) hf⟩
  refine exec_decPush_of_not_fits hlive fun hfits => ?_
  have hle := fitsCapacity_eq_true.1 hfits n hn
  omega

/-! ### What a scan step waits for (42_decoder.md R165, R179) -/

/-- The four shapes of a buffer that needs more bytes (42_decoder.md R165). -/
def Waits (s : State) : Prop :=
  s.rx = [] ∨ s.rx = [(rxPreamble s.inst).b0] ∨
  (∃ rest : Bytes, s.rx = (rxPreamble s.inst).b0 :: (rxPreamble s.inst).b1 :: rest ∧ rest.length < 2) ∨
  (∃ (t l : Byte) (rest : Bytes) (c : FrameClass),
    s.rx = (rxPreamble s.inst).b0 :: (rxPreamble s.inst).b1 :: t :: l :: rest ∧
    acceptedClass s.inst.dir t = some c ∧ minL c ≤ l.toNat ∧ s.rx.length < 2 + l.toNat)

theorem scanStep_of_waits {s : State} (h : Waits s) : scanStep s = (s, .needMore) := by
  rcases h with h | h | ⟨rest, h, hshort⟩ | ⟨t, l, rest, c, h, hc, hm, hl⟩
  · exact scanStep_nil h
  · exact scanStep_lone h
  · exact scanStep_short h hshort
  · rw [scanStep_candidate h, screenCandidate_wait hc hm hl]

theorem waits_of_screenCandidate {s : State} {t l : Byte} {rest : Bytes}
    (hrx : s.rx = (rxPreamble s.inst).b0 :: (rxPreamble s.inst).b1 :: t :: l :: rest)
    (h : (screenCandidate s t l).2 = .needMore) : Waits s := by
  rcases screenCandidate_cases s t l with ⟨h', _⟩ | ⟨_, c, hc, hm, hl⟩ | ⟨h', _⟩
  · exact absurd (h' ▸ h) (reject_snd_ne_needMore s)
  · exact .inr (.inr (.inr ⟨t, l, rest, c, hrx, hc, hm, hl⟩))
  · simp [h'] at h

/-- NeedMore is answered in no other shape, byte by byte from the front of the buffer. -/
theorem waits_of_needMore {s : State} (h : (scanStep s).2 = .needMore) : Waits s := by
  match hrx : s.rx with
  | [] => exact .inl hrx
  | b0 :: rest =>
    by_cases h0 : b0 = (rxPreamble s.inst).b0
    · subst h0
      match rest with
      | [] => exact .inr (.inl hrx)
      | b1 :: rest =>
        by_cases h1 : b1 = (rxPreamble s.inst).b1
        · subst h1
          match rest with
          | [] | [_] => exact .inr (.inr (.inl ⟨_, hrx, by simp⟩))
          | t :: l :: rest => exact waits_of_screenCandidate hrx (scanStep_candidate hrx ▸ h)
        · simp [scanStep_second hrx h1] at h
    · simp [scanStep_first hrx h0] at h

/-- Four bytes that wait are a candidate of an accepted header whose end is not there yet. -/
theorem Waits.candidate {s : State} (h : Waits s) (hlen : 4 ≤ s.rx.length) :
    ∃ (t l : Byte) (rest : Bytes) (c : FrameClass),
      s.rx = (rxPreamble s.inst).b0 :: (rxPreamble s.inst).b1 :: t :: l :: rest ∧
      acceptedClass s.inst.dir t = some c ∧ minL c ≤ l.toNat ∧ s.rx.length < 2 + l.toNat := by
  rcases h with h | h | ⟨rest, h, hshort⟩ | h
  · simp [h] at hlen
  · simp [h] at hlen
  · simp only [h, List.length_cons] at hlen
    omega
  · exact h

/-- Settles O22: the four shapes wait, and a push puts its bytes behind them. -/
theorem decStepNeedsMore : Obligations.DecStepNeedsMore := by
  intro s hlive hwaits
  refine ⟨exec_decStep_of_scan hlive (scanStep_of_waits hwaits), fun data hfits => ?_⟩
  exact exec_decPush_of_fits (s := answered s _) hlive (fitsCapacity_eq_true.2 hfits)

/-- Settles O55: a waiting buffer is shorter than its candidate, and a candidate is at most 257 bytes. -/
theorem candidateIsDecidedInBoundedBytes : Obligations.CandidateIsDecidedInBoundedBytes := by
  intro s hlive
  refine ⟨fun hlen => ⟨_, exec_decStep hlive, fun hneed => ?_⟩, fun t h hframe => ?_⟩
  · have hwaits : Waits s := waits_of_needMore (by simpa using hneed)
    obtain ⟨t, l, rest, c, hrx, _, _, hshort⟩ := hwaits.candidate (by omega)
    have hl := l.isLt
    have hL : lengthOf s.rx = l.toNat := by rw [hrx]; rfl
    omega
  · obtain ⟨_, rfl⟩ := exec_decStep_eq_next.1 h
    rcases scanStep_cases s with h' | ⟨h', _⟩ | ⟨h', _⟩ | ⟨f, _, _, _, h'⟩
    · exact .inl (by simp [h'])
    · exact .inr (by simp [h'])
    · exact .inr (by simp [h'])
    · exact absurd (by simp [h']) (hframe f)

/-! ### The scan step, rule by rule (42_decoder.md R162, R164, R166, R168) -/

/-- Settles O23: the two discards of the preamble search. -/
theorem decStepDiscards : Obligations.DecStepDiscards := by
  intro s b rest hlive hrx hb
  have hs : scanStep s = (discard1 s, .continued) := by
    rcases hb with hb | ⟨rfl, b1, more, rfl, hb1⟩
    · exact scanStep_first hrx hb
    · exact scanStep_second hrx hb1
  rw [exec_decStep_of_scan hlive hs, discard1, hrx]
  rfl

/-- Settles O24: a rejected candidate is one `reject`, which answers an Alarm only at the threshold. -/
theorem decStepRejects : Obligations.DecStepRejects := by
  intro s t l rest hlive hrx hwhy
  have hs : scanStep s = (rejectOne s, (reject s).2) := (scanStep_candidate hrx).trans (screenCandidate_reject hwhy)
  refine ⟨(reject s).2, ?_, (reject_snd s).imp And.left fun ⟨k, hk, halarm⟩ => ⟨k, hk, alarmAt_eq_some.1 halarm⟩⟩
  rw [exec_decStep_of_scan hlive hs, rejectOne, discard1, hrx]
  rfl

/-- Settles O25: a valid frame at the front of the buffer is delivered whatever follows it. -/
theorem decStepAccepts : Obligations.DecStepAccepts := by
  intro s f rest hlive hrx hf
  refine ⟨s.delivered ++ [f], ?_⟩
  rw [exec_decStep_of_scan hlive (scanStep_accepts hrx hf), acceptFrame, hrx, List.drop_left]
  rfl

/-- An Alarm of a scan step is a rejection that brings `mal` to the threshold, and such a rejection is an Alarm. -/
theorem scanStep_alarm_iff {s : State} {k : BitVec 32} :
    (scanStep s).2 = .alarm k ↔
      s.inst.malThreshold = some k.toNat ∧ s.mal.toNat + 1 = k.toNat ∧ (scanStep s).1.mal.toNat = k.toNat := by
  have hk := k.isLt
  rcases scanStep_cases s with h | ⟨h, _⟩ | ⟨h, _⟩ | ⟨f, _, _, _, h⟩
  · simp only [h, reduceCtorEq, false_iff]
    omega
  · simp only [h, reduceCtorEq, false_iff, discard1_mal]
    omega
  · have hmal : (rejectOne s).mal.toNat = min (s.mal.toNat + 1) counterMax := satInc_toNat s.mal
    have hmax : counterMax = 4294967295 := rfl
    have halarm : (reject s).2 = .alarm k ↔ alarmAt s.inst.malThreshold s.mal = some k := by
      rw [reject]
      cases alarmAt s.inst.malThreshold s.mal <;> simp
    rw [h, halarm, alarmAt_eq_some, reject_fst, hmal]
    refine and_congr_right fun _ => ?_
    omega
  · simp only [h, reduceCtorEq, false_iff, acceptFrame_mal]
    rintro ⟨_, hk', hzero⟩
    rw [← hzero] at hk'
    simp at hk'

/-- A step that answers an Alarm is a rejection. -/
theorem scanStep_fst_of_alarm {s : State} {k : BitVec 32} (h : (scanStep s).2 = .alarm k) :
    (scanStep s).1 = rejectOne s := by
  rcases scanStep_cases s with h' | ⟨h', _⟩ | ⟨h', _⟩ | ⟨f, _, _, _, h'⟩
  · simp [h'] at h
  · simp [h'] at h
  · rw [h', reject_fst]
  · simp [h'] at h

/-- Settles O26, from `scanStep_alarm_iff`; an Alarm's step is a rejection, so its byte is removed and counted. -/
theorem alarmExactlyAtThreshold : Obligations.AlarmExactlyAtThreshold := by
  intro s t h k
  obtain ⟨_, rfl⟩ := exec_decStep_eq_next.1 h
  have hresult : (returning (scanStep s).1 (.scan (scanStep s).2)).result = some (.scan (.alarm k)) ↔
      (scanStep s).2 = .alarm k := by simp
  rw [hresult]
  refine ⟨scanStep_alarm_iff, fun halarm => ?_⟩
  obtain ⟨_, _, hmal⟩ := scanStep_alarm_iff.1 halarm
  refine ⟨?_, ?_, BitVec.eq_of_toNat_eq hmal⟩ <;> rw [scanStep_fst_of_alarm halarm]
  · rfl
  · exact satInc_toNat s.drop

/-! ### The loop of DEC_POLL (42_decoder.md R169, R172, R176) -/

theorem afterPoll_of_continued {s t : State} (h : scanStep s = (t, .continued)) : afterPoll s = afterPoll t := by
  rw [afterPoll, poll_of_continued h, afterPoll]

theorem afterPoll_of_stop {s t : State} {r : StepResult} (h : scanStep s = (t, r)) (hr : r ≠ .continued) :
    afterPoll s = returning t (.event (eventOfStep r)) := by
  rw [afterPoll, poll_of_stop h hr]

/-- What an operation returned before plays no part in a poll. -/
theorem afterPoll_returning (s : State) (r : OpResult) : afterPoll (returning s r) = afterPoll s := by
  rw [afterPoll, poll_returning]
  rfl

theorem exec_decPoll_eq_next {s t : State} : exec .decPoll s = .next t ↔ s.fault = none ∧ t = afterPoll s := by
  change whenLive s _ = _ ↔ _
  rw [whenLive_eq_next, Host.Outcome.next.injEq, eq_comm (a := t)]
  rfl

/-- The rule of DEC_POLL where its first step answers Continue. -/
theorem exec_decPoll_of_continued {s t : State} (hlive : s.fault = none) (h : scanStep s = (t, .continued)) :
    exec .decPoll s = exec .decPoll (returning t (.scan .continued)) := by
  have hlive' : t.fault = none := (fault_of_scanStep h).trans hlive
  rw [exec_decPoll hlive, exec_decPoll (s := returning t _) hlive', afterPoll_returning, afterPoll_of_continued h]

/-- The rule of DEC_POLL where its first step ends the loop. -/
theorem exec_decPoll_of_stop {s t : State} {r : StepResult} (hlive : s.fault = none) (h : scanStep s = (t, r))
    (hr : r ≠ .continued) :
    exec .decPoll s = .next (answered (returning t (.scan r)) (.event (eventOfStep r))) := by
  rw [exec_decPoll hlive, afterPoll_of_stop h hr]
  rfl

/-- Settles O27, by the answer of the first step. -/
theorem decPollRepeatsDecStep : Obligations.DecPollRepeatsDecStep := by
  intro s
  refine ⟨fun hlive => ?_, fun f hf => exec_faulted (by simp) hf⟩
  rcases hs : scanStep s with ⟨t, r⟩
  refine ⟨_, r, exec_decStep_of_scan hlive hs, rfl, ?_⟩
  cases r with
  | continued => exact exec_decPoll_of_continued hlive hs
  | needMore | frame | alarm => exact exec_decPoll_of_stop hlive hs (by simp)

/-- Settles O28, by induction on the bytes of the buffer: a Continue takes one of them. -/
theorem decPollTerminates : Obligations.DecPollTerminates := by
  intro s hlive
  induction hn : s.rx.length generalizing s with
  | zero =>
    have hs := scanStep_nil (List.length_eq_zero_iff.1 hn)
    exact ⟨0, s, _, .needMore, le_rfl, rfl, rfl, exec_decStep_of_scan hlive hs, rfl, by simp,
      exec_decPoll_of_stop hlive hs (by simp)⟩
  | succ m ih =>
    rcases hs : scanStep s with ⟨u, r⟩
    by_cases hr : r = .continued
    · subst hr
      obtain ⟨hrx, _, _⟩ := scanStep_takes_one hs (.inl rfl)
      have hlive' : u.fault = none := (fault_of_scanStep hs).trans hlive
      have hlen : u.rx.length = m := by rw [hrx, List.length_drop, hn, Nat.add_sub_cancel]
      obtain ⟨n, t, v, r, hle, hsteps, ht, hexec, hresult, hend, hpoll⟩ :=
        ih (returning u (.scan .continued)) hlive' hlen
      refine ⟨n + 1, t, v, r, by omega, ?_, ?_, hexec, hresult, hend, ?_⟩
      · rw [continueSteps, exec_decStep_of_scan hlive hs]
        exact hsteps
      · rw [ht, returning_rx, hrx, List.drop_drop, Nat.add_comm]
      · rw [exec_decPoll_of_continued hlive hs, hpoll]
    · exact ⟨0, s, _, r, Nat.zero_le _, rfl, rfl, exec_decStep_of_scan hlive hs, rfl, hr,
        exec_decPoll_of_stop hlive hs hr⟩

/-- Where a poll answers NeedMore the scan needs more bytes. -/
theorem scanStep_poll_of_needMore {s : State} (h : (poll s).2 = .needMore) :
    scanStep (poll s).1 = ((poll s).1, .needMore) := by
  induction s using poll_induction with
  | stop s t r hs hr =>
    rw [poll_of_stop hs hr] at h ⊢
    cases r with
    | continued => exact absurd rfl hr
    | frame | alarm => cases h
    | needMore =>
      have hself := scanStep_eq_self (by rw [hs])
      obtain rfl : t = s := (Prod.mk.inj (hs.symm.trans hself)).1
      exact hs
  | go s t hs ih =>
    rw [poll_of_continued hs] at h ⊢
    exact ih h

/-- Settles O29: the scan of the state a NeedMore leaves needs more bytes again. -/
theorem needMoreIsStable : Obligations.NeedMoreIsStable := by
  intro s t h hneed
  obtain ⟨hlive, rfl⟩ := exec_decPoll_eq_next.1 h
  have hevent : (poll s).2 = .needMore := by simpa using hneed
  have hs := scanStep_poll_of_needMore hevent
  refine exec_decPoll_eq_next.2 ⟨by simpa using hlive, ?_⟩
  rw [afterPoll, hevent, afterPoll_returning, afterPoll_of_stop hs (by simp)]
  rfl

/-- A step that answers a frame is its acceptance. -/
theorem acceptFrame_of_scanStep {s t : State} {f : Bytes} (h : scanStep s = (t, .frame f)) :
    acceptedFrame s.inst f = true ∧ t = acceptFrame s f := by
  rcases scanStep_cases s with h' | ⟨h', _⟩ | ⟨h', _⟩ | ⟨g, _, _, hg, h'⟩
  · simp [h'] at h
  · simp [h'] at h
  · exact absurd (congrArg Prod.snd (h'.symm.trans h)) (reject_snd_ne_frame s f)
  · obtain ⟨rfl, heq⟩ := Prod.mk.inj (h'.symm.trans h)
    obtain rfl := StepResult.frame.inj heq
    exact ⟨hg, rfl⟩

/-- What a poll delivers is a frame the decoder accepts, and the counter of malformed frames starts again. -/
theorem acceptedFrame_of_poll {s : State} {f : Bytes} {v : Parsed} (h : (poll s).2 = .frame f v) :
    acceptedFrame s.inst f = true ∧ (poll s).1.mal = 0 := by
  induction s using poll_induction with
  | stop s t r hs hr =>
    rw [poll_of_stop hs hr] at h ⊢
    cases r with
    | continued => exact absurd rfl hr
    | needMore | alarm => cases h
    | frame g =>
      obtain rfl : g = f := (Event.frame.inj h).1
      obtain ⟨hf, rfl⟩ := acceptFrame_of_scanStep hs
      exact ⟨hf, rfl⟩
  | go s t hs ih =>
    rw [poll_of_continued hs] at h ⊢
    have hinst : t.inst = s.inst := by simpa [hs] using (scanStep_frame s).inst
    exact hinst ▸ ih h

/-- Settles O30: `acceptedFrame` written out, for the frame `poll_rx_split` finds in the buffer. -/
theorem onlyValidFramesAreDelivered : Obligations.OnlyValidFramesAreDelivered := by
  intro s t f v h hresult
  obtain ⟨_, rfl⟩ := exec_decPoll_eq_next.1 h
  have hevent : (poll s).2 = .frame f v := by simpa using hresult
  obtain ⟨gap, hgap⟩ := poll_rx_split s
  rw [hevent, eventBytes_frame] at hgap
  obtain ⟨haccepted, hmal⟩ := acceptedFrame_of_poll hevent
  obtain ⟨ty, l, rest, c, hf, hc, hm, hl, hv⟩ := acceptedFrame_eq_true.1 haccepted
  refine ⟨poll_frame_parse hevent, ⟨gap, hgap⟩, hmal, c, ?_, ?_, ?_, ?_, hv⟩
  · rw [hf, byteAt_two, hc]
  · rw [hf]
    exact hm
  · rw [hl, hf]
    rfl
  · rw [hf]
    rfl

/-! ### DEC_PARSE, DEC_RESET and DEC_STATUS (42_decoder.md R171, R174, R175) -/

/-- Settles O32: of a live block only the membership test decides. -/
theorem decParseReturnsTheParse : Obligations.DecParseReturnsTheParse := by
  intro s f hlive hf
  rw [exec_decParse hlive, if_pos hf]
  rfl

/-- Settles O38: the clearing, behind the fault prelude. -/
theorem decResetClearsTheDecoder : Obligations.DecResetClearsTheDecoder :=
  fun _ => ⟨fun hlive => whenLive_live hlive, fun _ hf => exec_faulted (by simp) hf⟩

/-- Settles O39: DEC_STATUS has no fault prelude. -/
theorem decStatusReadsInEveryState : Obligations.DecStatusReadsInEveryState :=
  fun s => exec_decStatus s

/-! ### The control headers as bytes (30_encoding.md R67) -/

theorem hSetaddr_eq : hSetaddr = 0x40 := rfl
theorem hWriteRegU_eq : hWriteRegU = 0x41 := rfl
theorem hWriteRegB_eq : hWriteRegB = 0x51 := rfl
theorem hReadRegU_eq : hReadRegU = 0x42 := rfl
theorem hReadRegB_eq : hReadRegB = 0x52 := rfl
theorem hChainInactive_eq : hChainInactive = 0x53 := rfl

/-! ### The parse, arm by arm (42_decoder.md R171, R180) -/

/-- Settles O34: each frame parses as its header and payload, and its header picks the arm. -/
theorem parseOfControlFrames : Obligations.ParseOfControlFrames := by
  intro a b p0 p1 p2 p3 p4 p5 c
  have hshort {t : Byte} (ht : cls t = some .c5) : parse [a, b, t, 5, p0, p1, c] = parseControl t 5 [p0, p1] :=
    parse_control_bytes (p := [p0, p1]) ht (by simp)
  have hwrite {t : Byte} (ht : cls t = some .c5) :
      parse [a, b, t, 9, p0, p1, p2, p3, p4, p5, c] = parseControl t 9 [p0, p1, p2, p3, p4, p5] :=
    parse_control_bytes (p := [p0, p1, p2, p3, p4, p5]) ht (by simp)
  rw [hshort (t := 0x40) rfl, hshort (t := 0x53) rfl, hshort (t := 0x42) rfl, hshort (t := 0x52) rfl,
    hwrite (t := 0x41) rfl, hwrite (t := 0x51) rfl]
  simp [parseControl, hSetaddr_eq, hChainInactive_eq, hReadRegU_eq, hReadRegB_eq, hWriteRegU_eq, hWriteRegB_eq,
    u32be_append]

theorem parseLong_respReg (addr reg : Byte) (value : BitVec 32) :
    parseLong hRespReg 10 (addr :: reg :: be32 value) = .rsp (.regResponse addr reg value) := by
  have hvalue := u32be_be32 value
  simp [parseLong, be32, hvalue, show hRespReg ≠ hJob by decide]

theorem parseLong_respJob (jobId addr : Byte) (nonce : BitVec 32) (version : BitVec 16) :
    parseLong hRespJob 12 (jobId :: addr :: (be32 nonce ++ be16 version)) =
      .rsp (.jobResult jobId addr nonce version) := by
  have hnonce := u32be_be32 nonce
  have hversion := u16be_be16 version
  simp [parseLong, be32, be16, hnonce, hversion, show hRespJob ≠ hJob by decide]

/-- Settles O35: the arms of `parseLong`, a response's values written as bytes. -/
theorem parseOfLongFrames : Obligations.ParseOfLongFrames := by
  intro a b j p0 p1 p2 p3 p4 p5 p6 p7 c0 c1 work hlen
  have hjob := four_add_length_cons j work
  refine ⟨?_, ?_, ?_⟩
  · have hparse := parse_long_bytes (a := a) (b := b) (c0 := c0) (c1 := c1) (p := j :: work) (t := hJob) rfl (by omega)
    rw [parseLong_job, hjob] at hparse
    exact hparse
  · have hparse := parseLong_respReg p0 p1 (p2 ++ p3 ++ p4 ++ p5)
    rw [be32_append] at hparse
    rw [← hparse]
    exact parse_long_bytes (p := [p0, p1, p2, p3, p4, p5]) rfl (by simp)
  · have hparse := parseLong_respJob p0 p1 (p2 ++ p3 ++ p4 ++ p5) (p6 ++ p7)
    rw [be32_append, be16_append] at hparse
    rw [← hparse]
    exact parse_long_bytes (p := [p0, p1, p2, p3, p4, p5, p6, p7]) rfl (by simp)

theorem parseControl_eq_unrecognized {t : Byte} {l : Nat} {p : Bytes}
    (hshort : ¬ (t ∈ ([0x40, 0x53, 0x42, 0x52] : Bytes) ∧ l = 5)) (hwrite : ¬ (t ∈ ([0x41, 0x51] : Bytes) ∧ l = 9)) :
    parseControl t l p = .unrecognized := by
  unfold parseControl
  split
  · split
    · rfl
    · have hmem : t ∉ ([0x40, 0x53, 0x42, 0x52] : Bytes) := fun ht => hshort ⟨ht, not_not.1 ‹_›⟩
      have hne : t ≠ hSetaddr ∧ t ≠ hChainInactive ∧ t ≠ hReadRegU ∧ t ≠ hReadRegB := by
        simpa [hSetaddr_eq, hChainInactive_eq, hReadRegU_eq, hReadRegB_eq] using hmem
      simp [hne]
  · split
    · rfl
    · have hmem : t ∉ ([0x41, 0x51] : Bytes) := fun ht => hwrite ⟨ht, not_not.1 ‹_›⟩
      have hne : t ≠ hWriteRegU ∧ t ≠ hWriteRegB := by simpa [hWriteRegU_eq, hWriteRegB_eq] using hmem
      simp [hne]
  · rfl

theorem parseLong_eq_unrecognized {t : Byte} {l : Nat} {p : Bytes} (hjob : ¬ (t = 0x21 ∧ 5 ≤ l))
    (hreg : ¬ (t = 0x60 ∧ l = 10)) (hrjob : ¬ (t = 0x80 ∧ l = 12)) : parseLong t l p = .unrecognized := by
  unfold parseLong
  split
  · split
    · exact if_neg fun hl => hjob ⟨‹_›, hl⟩
    · rfl
  · split
    · exact if_neg hreg
    · exact if_neg hrjob
    · rfl

/-- Settles O36, class by class of the header. -/
theorem parseOfUnnamedFramesIsUnrecognized : Obligations.ParseOfUnnamedFramesIsUnrecognized := by
  intro f hshort hwrite hjob hreg hrjob
  unfold parse
  split
  · rfl
  · exact parseControl_eq_unrecognized hshort hwrite
  · exact parseLong_eq_unrecognized hjob hreg hrjob

/-! ### Polling until NeedMore, scan step by scan step (42_decoder.md R169) -/

/-- A poll that answers an event has taken a byte from the buffer. -/
theorem poll_rx_length_lt {s : State} (h : (poll s).2 ≠ .needMore) : (poll s).1.rx.length < s.rx.length := by
  induction s using poll_induction with
  | stop s t r hs hr =>
    rw [poll_of_stop hs hr] at h ⊢
    refine scanStep_rx_length_lt hs ?_
    rintro rfl
    exact h rfl
  | go s t hs ih =>
    rw [poll_of_continued hs] at h ⊢
    exact (ih h).trans (scanStep_rx_length_lt hs (by simp))

/-- Polling until NeedMore, with the fuel `pushAndPoll` gives it. -/
def drain (s : State) : State × List Event := pollUntilNeedMore (s.rx.length + 1) s

/-- More polls than the buffer has bytes change nothing. -/
theorem pollUntilNeedMore_eq_drain {fuel : Nat} {s : State} (hlive : s.fault = none) (hfuel : s.rx.length + 1 ≤ fuel) :
    pollUntilNeedMore fuel s = drain s := by
  suffices ∀ m n (s : State), s.fault = none → s.rx.length + 1 ≤ m → s.rx.length + 1 ≤ n →
      pollUntilNeedMore m s = pollUntilNeedMore n s from this fuel _ s hlive hfuel le_rfl
  intro m
  induction m with
  | zero => intro n s _ hm; omega
  | succ m ih =>
    intro n s hlive hm hn
    obtain ⟨n, rfl⟩ : ∃ k, n = k + 1 := ⟨n - 1, by omega⟩
    by_cases hevent : (poll s).2 = .needMore
    · rw [pollUntilNeedMore_of_needMore hlive hevent, pollUntilNeedMore_of_needMore hlive hevent]
    · have hlt : (afterPoll s).rx.length < s.rx.length := poll_rx_length_lt hevent
      rw [pollUntilNeedMore_of_event hlive hevent, pollUntilNeedMore_of_event hlive hevent,
        ih n (afterPoll s) (by simpa using hlive) (by omega) (by omega)]

/-- The polling reads its start only through the first poll. -/
theorem pollUntilNeedMore_congr {s t : State} (hs : s.fault = none) (ht : t.fault = none)
    (h : afterPoll s = afterPoll t) (fuel : Nat) : pollUntilNeedMore (fuel + 1) s = pollUntilNeedMore (fuel + 1) t := by
  simp only [pollUntilNeedMore, exec_decPoll hs, exec_decPoll ht, h]

theorem drain_returning {s : State} (hlive : s.fault = none) (r : OpResult) : drain (returning s r) = drain s :=
  pollUntilNeedMore_congr (s := returning s r) hlive hlive (afterPoll_returning s r) _

/-- What a scan step adds to the events the caller sees. -/
def stepEvents : StepResult → List Event
  | .continued | .needMore => []
  | .frame f => [.frame f (parse f)]
  | .alarm k => [.alarm k]

theorem drain_of_needMore {s : State} (hlive : s.fault = none) (h : scanStep s = (s, .needMore)) :
    drain s = (returning s (.event .needMore), []) := by
  have hpoll : poll s = (s, .needMore) := poll_of_stop h (by simp)
  rw [drain, pollUntilNeedMore_of_needMore hlive (by rw [hpoll]), afterPoll, hpoll]

/-- Polling until NeedMore unrolled by one scan step. -/
theorem drain_of_scan {s t : State} {r : StepResult} (hlive : s.fault = none) (hs : scanStep s = (t, r))
    (hr : r ≠ .needMore) : drain s = ((drain t).1, stepEvents r ++ (drain t).2) := by
  have hlt := scanStep_rx_length_lt hs hr
  have hlive' : t.fault = none := (fault_of_scanStep hs).trans hlive
  -- a step that ends its poll with an event
  have hstop (hgo : r ≠ .continued) (hevent : eventOfStep r ≠ .needMore) :
      drain s = ((drain t).1, eventOfStep r :: (drain t).2) := by
    have hpoll : (poll s).2 = eventOfStep r := by rw [poll_of_stop hs hgo]
    rw [drain, pollUntilNeedMore_of_event hlive (hpoll ▸ hevent), hpoll, afterPoll_of_stop hs hgo,
      pollUntilNeedMore_eq_drain (s := returning t _) hlive' hlt, drain_returning hlive']
  cases r with
  | needMore => exact absurd rfl hr
  | continued =>
    rw [drain, pollUntilNeedMore_congr hlive hlive' (afterPoll_of_continued hs),
      pollUntilNeedMore_eq_drain hlive' (by omega)]
    rfl
  | frame f => exact hstop (by simp) (by simp [eventOfStep])
  | alarm k => exact hstop (by simp) (by simp [eventOfStep])

/-- The polling ends with the NeedMore it was run for. -/
theorem drain_result {s : State} (hlive : s.fault = none) : (drain s).1.result = some (.event .needMore) := by
  induction s using scan_induction with
  | stop s hs =>
    rw [drain_of_needMore hlive hs]
    rfl
  | go s t r hs hr ih =>
    rw [drain_of_scan hlive hs hr]
    exact ih ((fault_of_scanStep hs).trans hlive)

theorem drain_frame {s : State} (hlive : s.fault = none) : ScanFrame s (drain s).1 := by
  induction s using scan_induction with
  | stop s hs =>
    rw [drain_of_needMore hlive hs]
    exact ⟨rfl, rfl, rfl, rfl, le_rfl, le_rfl⟩
  | go s t r hs hr ih =>
    have hst : ScanFrame s t := by simpa [hs] using scanStep_frame s
    rw [drain_of_scan hlive hs hr]
    exact hst.trans (ih (hst.fault.trans hlive))

theorem drain_fault {s : State} (hlive : s.fault = none) : (drain s).1.fault = none :=
  (drain_frame hlive).fault.trans hlive

theorem pushAndPoll_of_fits {s : State} {data : Bytes} (hlive : s.fault = none)
    (hfits : fitsCapacity s.inst.rxCapacity (s.rx.length + data.length) = true) :
    pushAndPoll data s = drain (pushBytes s data) := by
  rw [pushAndPoll, exec_decPush_of_fits hlive hfits]
  exact drain_returning (s := pushBytes s data) hlive .done

/-! ### The frames an encoder builds are accepted (41_encoder.md R121, R123, 42_decoder.md R166) -/

/-- The checksummed span stands between the preamble and the check bytes (30_encoding.md R69). -/
theorem slice_body (a b t l : Byte) (p check : Bytes) :
    slice (a :: b :: t :: l :: (p ++ check)) 2 (p.length + 4) = t :: l :: p := by
  simp [slice]

theorem byteAt_check (a b t l : Byte) (p check : Bytes) (n : Nat) :
    byteAt (a :: b :: t :: l :: (p ++ check)) (p.length + 4 + n) = byteAt check n := by
  have hn : p.length + 4 + n = p.length + n + 4 := by omega
  simp [byteAt, List.getD_eq_getElem?_getD, hn, List.getElem?_append_right]

theorem validC5_of_bytes (cfg : Cfg) (a b t : Byte) {p : Bytes} (hp : 3 + p.length < 256) :
    validC5 cfg (a :: b :: t :: BitVec.ofNat 8 (3 + p.length) ::
      (p ++ [zext8 (crc5 cfg (t :: BitVec.ofNat 8 (3 + p.length) :: p))])) = true := by
  have hcheck : 2 + (3 + p.length) - 1 = p.length + 4 + 0 := by omega
  rw [validC5, lengthOf_cons_ofNat hp, hcheck, byteAt_check, Nat.add_zero, slice_body]
  exact beq_self_eq_true _

theorem validC16_of_bytes (cfg : Cfg) (a b t : Byte) {p : Bytes} (hp : 4 + p.length < 256) :
    validC16 cfg (a :: b :: t :: BitVec.ofNat 8 (4 + p.length) ::
      (p ++ be16 (crc16 cfg (t :: BitVec.ofNat 8 (4 + p.length) :: p)))) = true := by
  have hfirst : 2 + (4 + p.length) - 2 = p.length + 4 + 0 := by omega
  have hsecond : 2 + (4 + p.length) - 1 = p.length + 4 + 1 := by omega
  rw [validC16, lengthOf_cons_ofNat hp, hfirst, hsecond, byteAt_check, byteAt_check, Nat.add_zero, slice_body]
  exact beq_self_eq_true _

theorem acceptedFrame_frameC5 {i : Instance} {t : Byte} {p : Bytes} (hdir : i.dir = .chip)
    (ht : acceptedClass .chip t = some .c5) (hp : 3 + p.length < 256) :
    acceptedFrame i (frameC5 i.cfg t p) = true := by
  have hl : (BitVec.ofNat 8 (3 + p.length)).toNat = 3 + p.length :=
    (BitVec.toNat_ofNat ..).trans (Nat.mod_eq_of_lt hp)
  refine acceptedFrame_eq_true.2 ⟨t, BitVec.ofNat 8 (3 + p.length),
    p ++ [zext8 (crc5 i.cfg (t :: BitVec.ofNat 8 (3 + p.length) :: p))], .c5, ?_, by rwa [hdir], ?_, ?_, ?_⟩
  · simp [frameC5, preambleBytes, rxPreamble, hdir]
  · rw [hl]
    exact Nat.le_add_right _ _
  · simp only [frameC5, preambleBytes, List.length_append, List.length_cons, List.length_nil, hl]
    omega
  · exact validC5_of_bytes i.cfg _ _ t hp

theorem acceptedFrame_of_frameC16_eq_ok {i : Instance} {t : Byte} {p out : Bytes}
    (ht : acceptedClass i.dir t = some .c16) (h : frameC16 i.cfg (rxPreamble i) t p = .ok out) :
    acceptedFrame i out = true := by
  have hlmax := i.cfg.lmax.isLt
  rcases frameC16_cases i.cfg (rxPreamble i) t p with ⟨hle, hok⟩ | ⟨_, herror⟩
  · obtain rfl := Except.ok.inj (hok.symm.trans h)
    have hl : (BitVec.ofNat 8 (4 + p.length)).toNat = 4 + p.length :=
      (BitVec.toNat_ofNat ..).trans (Nat.mod_eq_of_lt (by omega))
    refine acceptedFrame_eq_true.2 ⟨t, BitVec.ofNat 8 (4 + p.length),
      p ++ be16 (crc16 i.cfg (t :: BitVec.ofNat 8 (4 + p.length) :: p)), .c16, ?_, ht, ?_, ?_, ?_⟩
    · simp [preambleBytes]
    · rw [hl]
      exact Nat.le_add_right _ _
    · simp only [preambleBytes, List.length_append, List.length_cons, List.length_nil, be16_length, hl]
      omega
    · simpa [preambleBytes, valid] using validC16_of_bytes i.cfg _ _ t (by omega)
  · simp [herror] at h

/-! ### A buffer of whole frames (42_decoder.md R166, R177) -/

/-- `out` is whole frames that a decoder with the arguments `i` accepts, and `values` is what they parse to, in order. -/
def Carries (i : Instance) (out : Bytes) (values : List Parsed) : Prop :=
  ∃ frames : List Bytes, frames.flatten = out ∧ frames.map parse = values ∧ ∀ f ∈ frames, acceptedFrame i f = true

theorem carries_singleton {i : Instance} {f : Bytes} {v : Parsed} (hf : acceptedFrame i f = true) (hv : parse f = v) :
    Carries i f [v] :=
  ⟨[f], by simp, by simp [hv], by simpa using hf⟩

theorem Carries.append {i : Instance} {a b : Bytes} {vs ws : List Parsed} (ha : Carries i a vs) (hb : Carries i b ws) :
    Carries i (a ++ b) (vs ++ ws) := by
  obtain ⟨fs, rfl, rfl, hfs⟩ := ha
  obtain ⟨gs, rfl, rfl, hgs⟩ := hb
  exact ⟨fs ++ gs, by simp, by simp, fun f hf => (List.mem_append.1 hf).elim (hfs f) (hgs f)⟩

/-- The event a delivered frame is answered as. -/
def frameEvent (f : Bytes) : Event := .frame f (parse f)

/-- Whole frames in the buffer are delivered one by one, with no byte discarded between them. -/
theorem drain_of_frames {s : State} (hlive : s.fault = none) {frames : List Bytes} (hrx : s.rx = frames.flatten)
    (hframes : ∀ f ∈ frames, acceptedFrame s.inst f = true) :
    (drain s).2 = frames.map frameEvent ∧ (drain s).1.rx = [] ∧ (drain s).1.drop = s.drop ∧
      (frames ≠ [] ∨ s.mal = 0 → (drain s).1.mal = 0) := by
  induction frames generalizing s with
  | nil =>
    rw [drain_of_needMore hlive (scanStep_nil hrx)]
    simp [show s.rx = [] from hrx]
  | cons f frames ih =>
    have hs := scanStep_accepts (rest := frames.flatten) hrx (hframes f (by simp))
    obtain ⟨hevents, hempty, hdrop, hmal⟩ := ih (s := acceptFrame s f) hlive (by simp [hrx])
      fun g hg => hframes g (List.mem_cons_of_mem f hg)
    rw [drain_of_scan hlive hs (by simp), hevents]
    exact ⟨rfl, hempty, hdrop, fun _ => hmal (.inr rfl)⟩

/-- R177 for the bytes of any frames: what the caller sees of them is their values, and their bytes. -/
theorem pushAndPoll_of_carries {d : State} {out : Bytes} {values : List Parsed} (hlive : d.fault = none)
    (hrx : d.rx = []) (hfits : ∀ n, d.inst.rxCapacity = some n → out.length ≤ n)
    (hout : Carries d.inst out values) (hvalues : values ≠ []) :
    (pushAndPoll out d).2.map eventParsed = values.map some ∧ (pushAndPoll out d).2.flatMap eventBytes = out ∧
      (pushAndPoll out d).1.rx = [] ∧ (pushAndPoll out d).1.drop = d.drop ∧ (pushAndPoll out d).1.mal = 0 ∧
      (pushAndPoll out d).1.result = some (.event .needMore) := by
  obtain ⟨frames, rfl, rfl, hframes⟩ := hout
  have hlive' : (pushBytes d frames.flatten).fault = none := hlive
  obtain ⟨hevents, hempty, hdrop, hmal⟩ := drain_of_frames hlive' (by simp [hrx]) hframes
  rw [pushAndPoll_of_fits hlive (by simpa [hrx, fitsCapacity_eq_true] using hfits), hevents]
  refine ⟨?_, ?_, hempty, hdrop, hmal (.inl (by simpa using hvalues)), drain_result hlive'⟩
  · simp [frameEvent, eventParsed]
  · rw [List.flatMap_map, List.flatten_eq_flatMap]
    rfl

/-! ### What the encoders return carries what was sent (42_decoder.md R177) -/

theorem cls_of_acceptedClass {d : Direction} {t : Byte} {c : FrameClass} (h : acceptedClass d t = some c) :
    cls t = some c := by
  rw [acceptedClass] at h
  split at h
  · exact h
  · cases h

theorem carries_frameC5 {i : Instance} {cfg : Cfg} {t : Byte} {p : Bytes} {v : Parsed} (hdir : i.dir = .chip)
    (hcfg : i.cfg = cfg) (ht : acceptedClass .chip t = some .c5) (hp : 3 + p.length < 256)
    (hv : parseControl t (3 + p.length) p = v) : Carries i (frameC5 cfg t p) [v] := by
  subst hcfg
  exact carries_singleton (acceptedFrame_frameC5 hdir ht hp) ((parse_frameC5 (cls_of_acceptedClass ht) hp).trans hv)

theorem carries_broadcastWrite {i : Instance} {cfg : Cfg} (hdir : i.dir = .chip) (hcfg : i.cfg = cfg) (w : RegWrite) :
    Carries i (broadcastWrite cfg w) [.cmd (.writeRegister .broadcast 0 w.reg w.value)] :=
  carries_frameC5 hdir hcfg rfl (by simp [writePayload]) (parseControl_writeFrame .broadcast rfl w.reg w.value)

theorem carries_of_encodeControl {i : Instance} {values : List Parsed} {t : Byte} {p out : Bytes} {s u : State}
    (hframe : Carries i (frameC5 s.inst.cfg t p) values) (h : encodeControl t p s = .next u)
    (hout : u.result = some (.bytes out)) : Carries i out values := by
  obtain ⟨_, rfl⟩ := encodeControl_eq_next.1 h
  obtain rfl : frameC5 s.inst.cfg t p = out := by simpa using hout
  exact hframe

theorem carries_of_encodeLong {i : Instance} {before : Bytes} {values : List Parsed} {pre : Preamble} {t : Byte}
    {p out : Bytes} {s u : State} (hbefore : Carries i before values) (hcfg : i.cfg = s.inst.cfg)
    (hpre : pre = rxPreamble i) (ht : acceptedClass i.dir t = some .c16)
    (h : encodeLong before pre t p s = .next u) (hout : u.result = some (.bytes out)) :
    Carries i out (values ++ [parseLong t (4 + p.length) p]) := by
  subst hpre
  obtain ⟨_, ⟨frame, hframe, rfl⟩ | ⟨f, _, rfl⟩⟩ := encodeLong_eq_next.1 h
  · obtain rfl : before ++ frame = out := by simpa using hout
    exact hbefore.append (carries_singleton (acceptedFrame_of_frameC16_eq_ok ht (hcfg ▸ hframe))
      (parse_of_frameC16_eq_ok (cls_of_acceptedClass ht) hframe))
  · simp at hout

theorem carries_nil (i : Instance) : Carries i [] [] := ⟨[], rfl, rfl, by simp⟩

theorem carries_of_jobFrame {i : Instance} {before : Bytes} {values : List Parsed} {jobId : Byte} {work out : Bytes}
    {s u : State} (hbefore : Carries i before values) (hdir : i.dir = .chip) (hcfg : i.cfg = s.inst.cfg)
    (h : encodeLong before s.inst.cfg.preCmd hJob (jobId :: work) s = .next u) (hout : u.result = some (.bytes out)) :
    Carries i out (values ++ [.cmd (.submitJob jobId work none)]) := by
  have hpre : s.inst.cfg.preCmd = rxPreamble i := by simp [rxPreamble, hdir, hcfg]
  rw [← parseLong_job]
  exact carries_of_encodeLong hbefore hcfg hpre (by rw [hdir]; rfl) h hout

/-- What an encoder returns for a command carries the commands it is sent as, to any CHIP decoder of its `Cfg`. -/
theorem carries_of_command {i : Instance} {c : Command} {out : Bytes} {expected : List Command} {s u : State}
    (hdir : i.dir = .chip) (hcfg : i.cfg = s.inst.cfg) (hsent : sentAs s.inst.cap c = some expected)
    (h : exec (instrOfCommand c) s = .next u) (hout : u.result = some (.bytes out)) :
    Carries i out (expected.map .cmd) := by
  cases c with
  | setChipAddress addr =>
    obtain rfl := Option.some.inj hsent
    have hcarries := carries_frameC5 hdir hcfg (t := hSetaddr) (p := [addr, 0]) rfl (by simp) rfl
    exact carries_of_encodeControl hcarries h hout
  | chainInactive =>
    obtain rfl := Option.some.inj hsent
    have hcarries := carries_frameC5 hdir hcfg (t := hChainInactive) (p := [0, 0]) rfl (by simp) rfl
    exact carries_of_encodeControl hcarries h hout
  | readRegister mode addr reg =>
    cases mode with
    | unicast =>
      obtain rfl := Option.some.inj hsent
      have hcarries := carries_frameC5 hdir hcfg (t := hReadRegU) (p := [addr, reg]) rfl (by simp)
        (parseControl_readFrame .unicast rfl reg)
      exact carries_of_encodeControl hcarries h hout
    | broadcast =>
      obtain rfl := Option.some.inj hsent
      have hcarries := carries_frameC5 hdir hcfg (t := hReadRegB) (p := [0, reg]) rfl (by simp)
        (parseControl_readFrame .broadcast (addr := 0) rfl reg)
      exact carries_of_encodeControl hcarries h hout
  | writeRegister mode addr reg value =>
    cases mode with
    | unicast =>
      obtain rfl := Option.some.inj hsent
      have hcarries := carries_frameC5 hdir hcfg (t := hWriteRegU) (p := writePayload addr reg value) rfl
        (by simp [writePayload]) (parseControl_writeFrame .unicast rfl reg value)
      exact carries_of_encodeControl hcarries h hout
    | broadcast =>
      obtain rfl := Option.some.inj hsent
      exact carries_of_encodeControl (carries_broadcastWrite hdir hcfg ⟨reg, value⟩) h hout
  | setBaudRate rate =>
    cases hw : baudWriteOf s.inst.cap rate with
    | none => simp [sentAs, hw] at hsent
    | some w =>
      obtain rfl : [.writeRegister .broadcast 0 w.reg w.value] = expected := by simpa [sentAs, hw] using hsent
      have hwrite := (exec_encBaud_of_some hw).symm.trans h
      exact carries_of_encodeControl (carries_broadcastWrite hdir hcfg w) hwrite hout
  | submitJob jobId work mask =>
    cases mask with
    | none =>
      obtain rfl := Option.some.inj hsent
      exact carries_of_jobFrame (carries_nil i) hdir hcfg h hout
    | some m =>
      cases hvr : s.inst.cap.vrSupported with
      | false => simp [sentAs, hvr] at hsent
      | true =>
        have hsent' := hsent.symm.trans (if_pos hvr)
        obtain rfl := Option.some.inj hsent'.symm
        exact carries_of_jobFrame (carries_broadcastWrite hdir hcfg _) hdir hcfg
          ((exec_encJob_of_supported hvr jobId work m).symm.trans h) hout

theorem sentAs_ne_nil {cap : Cap} {c : Command} {expected : List Command} (h : sentAs cap c = some expected) :
    expected ≠ [] := by
  rintro rfl
  cases c with
  | setChipAddress | chainInactive => cases h
  | readRegister mode | writeRegister mode => cases mode <;> cases h
  | setBaudRate rate => cases hw : baudWriteOf cap rate <;> simp [sentAs, hw] at h
  | submitJob jobId work mask =>
    cases mask with
    | none => cases h
    | some m => cases hvr : cap.vrSupported <;> simp [sentAs, hvr] at h

/-- What an encoder returns for a response carries it, to any HOST decoder of its `Cfg`. -/
theorem carries_of_response {i : Instance} {r : Response} {out : Bytes} {s u : State} (hdir : i.dir = .host)
    (hcfg : i.cfg = s.inst.cfg) (h : exec (instrOfResponse r) s = .next u) (hout : u.result = some (.bytes out)) :
    Carries i out [.rsp r] := by
  have hpre : s.inst.cfg.preRsp = rxPreamble i := by simp [rxPreamble, hdir, hcfg]
  cases r with
  | regResponse addr reg value =>
    rw [← parseLong_respReg]
    exact carries_of_encodeLong (carries_nil i) hcfg hpre (by rw [hdir]; rfl) h hout
  | jobResult jobId addr nonce version =>
    rw [← parseLong_respJob]
    exact carries_of_encodeLong (carries_nil i) hcfg hpre (by rw [hdir]; rfl) h hout

/-- The one event that carries the one value `v` in the bytes `out`. -/
theorem eq_singleton_of_eventParsed {events : List Event} {v : Parsed} {out : Bytes}
    (hparsed : events.map eventParsed = [some v]) (hbytes : events.flatMap eventBytes = out) :
    events = [.frame out v] := by
  obtain ⟨e, rfl, he⟩ := List.map_eq_singleton_iff.1 hparsed
  cases e with
  | needMore | alarm => cases he
  | frame f w =>
    obtain rfl := Option.some.inj he
    simp [← hbytes]

/-- Settles O53: what is sent carries the commands, and a decoder delivers what the bytes carry. -/
theorem roundTrip : Obligations.RoundTrip := by
  refine ⟨fun c e e' d out expected h hout hsent hlive hdir hcfg hrx hfits => ?_,
    fun r e e' d out h hout hlive hdir hcfg hrx hfits => ?_⟩
  · have hcarries := carries_of_command hdir hcfg hsent h hout
    have hne : expected.map Parsed.cmd ≠ [] := by simpa using sentAs_ne_nil hsent
    simpa [Function.comp_def] using pushAndPoll_of_carries hlive hrx hfits hcarries hne
  · have hcarries := carries_of_response hdir hcfg h hout
    obtain ⟨hparsed, hbytes, hend⟩ := pushAndPoll_of_carries hlive hrx hfits hcarries (by simp)
    exact ⟨eq_singleton_of_eventParsed hparsed hbytes, hend⟩

/-! ### The same events however a stream is split (42_decoder.md R182) -/

theorem pushBytes_pushBytes (s : State) (a b : Bytes) : pushBytes (pushBytes s a) b = pushBytes s (a ++ b) := by
  simp [pushBytes]

/-- Scanning what is there and then what comes later is scanning it all at once. -/
theorem drain_pushBytes {s : State} (hlive : s.fault = none) (more : Bytes) :
    drain (pushBytes s more) =
      ((drain (pushBytes (drain s).1 more)).1, (drain s).2 ++ (drain (pushBytes (drain s).1 more)).2) := by
  induction s using scan_induction with
  | stop s hs =>
    rw [drain_of_needMore hlive hs]
    exact (drain_returning (s := pushBytes s more) hlive _).symm
  | go s t r hs hr ih =>
    have hpush := scanStep_append hs hr more
    rw [drain_of_scan hlive hs hr, drain_of_scan (s := pushBytes s more) hlive hpush hr,
      ih ((fault_of_scanStep hs).trans hlive)]
    simp

/-- A feed whose pushes fit ends where one push of the whole stream would, past any capacity. -/
theorem feed_eq_drain {split : List Bytes} {s : State} (hlive : s.fault = none) (hne : split ≠ [])
    (hfits : feedFits split s = true) : feed split s = drain (pushBytes s split.flatten) := by
  induction split generalizing s with
  | nil => exact absurd rfl hne
  | cons chunk chunks ih =>
    rw [feedFits, Bool.and_eq_true] at hfits
    obtain ⟨hchunk, hchunks⟩ := hfits
    have hlive' : (pushBytes s chunk).fault = none := hlive
    rw [pushAndPoll_of_fits hlive hchunk] at hchunks
    rw [feed, pushAndPoll_of_fits hlive hchunk]
    cases chunks with
    | nil => simp [feed]
    | cons next chunks =>
      rw [ih (drain_fault hlive') (by simp) hchunks, List.flatten_cons (l := chunk), ← pushBytes_pushBytes,
        drain_pushBytes hlive' (next :: chunks).flatten]

theorem feedFits_of_flatten_fits {split : List Bytes} {s : State} (hlive : s.fault = none)
    (hfits : fitsCapacity s.inst.rxCapacity (s.rx.length + split.flatten.length) = true) :
    feedFits split s = true := by
  induction split generalizing s with
  | nil => rfl
  | cons chunk chunks ih =>
    rw [List.flatten_cons, List.length_append] at hfits
    have hchunk := fitsCapacity_mono (m := s.rx.length + chunk.length) (by omega) hfits
    have hlive' : (pushBytes s chunk).fault = none := hlive
    have hframe := drain_frame hlive'
    have hle := hframe.rx_length_le
    rw [pushBytes_rx, List.length_append] at hle
    rw [feedFits, hchunk, pushAndPoll_of_fits hlive hchunk, Bool.true_and]
    refine ih (drain_fault hlive') ?_
    rw [hframe.inst]
    exact fitsCapacity_mono (by omega) hfits

/-- Settles O56: both splits are the one push of their stream. -/
theorem chunkingInvariance : Obligations.ChunkingInvariance := by
  intro s hlive
  refine ⟨fun split other hsplit hother heq hfits hfits' => ?_, fun split hfits => ?_⟩
  · rw [feed_eq_drain hlive hsplit hfits, feed_eq_drain hlive hother hfits', heq]
    exact ⟨rfl, rfl⟩
  · exact feedFits_of_flatten_fits hlive (fitsCapacity_eq_true.2 hfits)

/-! ### Resynchronisation (42_decoder.md R178) -/

theorem slice_succ (b : Byte) (xs : Bytes) (m n : Nat) : slice (b :: xs) (m + 1) (n + 1) = slice xs m n := by
  simp [slice]

theorem byteAt_succ (b : Byte) (xs : Bytes) (n : Nat) : byteAt (b :: xs) (n + 1) = byteAt xs n := rfl

/-- A live candidate stays one with a byte put in front of the stream. -/
theorem LiveCandidate.cons {i : Instance} {stream : Bytes} {n : Nat} (h : LiveCandidate i stream n) (b : Byte) :
    LiveCandidate i (b :: stream) (n + 1) := by
  obtain ⟨hlen, h0, h1, c, hc, hm, hend⟩ := h
  refine ⟨by rw [List.length_cons]; omega, h0, h1, c, hc, hm, hend.imp (fun hrun => ?_) fun hv => ?_⟩
  · rw [Nat.add_right_comm, byteAt_succ, List.length_cons]
    omega
  · rw [Nat.add_right_comm n 1 3, byteAt_succ, Nat.add_right_comm n 1 2, Nat.add_right_comm (n + 2) 1, slice_succ]
    exact hv

/-- A buffer that waits with its four bytes there begins with a live candidate: one that runs past its end. -/
theorem Waits.liveCandidate {s : State} (h : Waits s) (hlen : 4 ≤ s.rx.length) : LiveCandidate s.inst s.rx 0 := by
  obtain ⟨t, l, rest, c, hrx, hc, hm, hshort⟩ := h.candidate hlen
  rw [hrx] at hlen hshort ⊢
  refine ⟨by simp, rfl, rfl, c, hc, hm, .inl ?_⟩
  change _ < 0 + 2 + l.toNat
  omega

/-- A buffer with a frame to deliver begins with a live candidate: one that validates. -/
theorem liveCandidate_of_accepted {i : Instance} {f rest : Bytes} (hf : acceptedFrame i f = true) :
    LiveCandidate i (f ++ rest) 0 := by
  obtain ⟨t, l, tail, c, hbytes, hc, hm, hl, hv⟩ := acceptedFrame_eq_true.1 hf
  have htake : slice (f ++ rest) 0 (0 + 2 + l.toNat) = f := by
    rw [slice, List.drop_zero, Nat.zero_add, ← hl, List.take_left]
  subst hbytes
  exact ⟨by simp, rfl, rfl, c, hc, hm, .inr (htake.symm ▸ hv)⟩

/-- Without a live candidate in front a scan step takes one byte. -/
theorem scanStep_of_not_liveCandidate {s : State} (hlen : 4 ≤ s.rx.length) (h : ¬ LiveCandidate s.inst s.rx 0) :
    scanStep s = (discard1 s, .continued) ∨ scanStep s = (rejectOne s, (reject s).2) := by
  rcases scanStep_cases s with h' | ⟨h', _⟩ | ⟨h', _⟩ | ⟨f, rest, hrx, hf, _⟩
  · exact absurd ((waits_of_needMore (by rw [h'])).liveCandidate hlen) h
  · exact .inl h'
  · exact .inr h'
  · exact absurd (hrx ▸ liveCandidate_of_accepted hf) h

/-- The events of the one frame `f` after bytes without a live candidate: it alone, or behind the one Alarm that a count
of malformed frames below the threshold can still raise. -/
def OneFrame (threshold : Option Nat) (mal : Nat) (f : Bytes) (events : List Event) : Prop :=
  events = [frameEvent f] ∨
    ∃ k : BitVec 32, threshold = some k.toNat ∧ mal < k.toNat ∧ events = [.alarm k, frameEvent f]

theorem OneFrame.mono {threshold : Option Nat} {mal mal' : Nat} {f : Bytes} {events : List Event}
    (h : OneFrame threshold mal' f events) (hle : mal ≤ mal') : OneFrame threshold mal f events :=
  h.imp_right fun ⟨k, hk, hlt, hevents⟩ => ⟨k, hk, hle.trans_lt hlt, hevents⟩

/-- The count that an Alarm leaves is the threshold, so no second one follows. -/
theorem OneFrame.alarm {threshold : Option Nat} {mal : Nat} {k : BitVec 32} {f : Bytes} {events : List Event}
    (h : OneFrame threshold k.toNat f events) (hk : threshold = some k.toNat) (hlt : mal < k.toNat) :
    OneFrame threshold mal f (.alarm k :: events) := by
  rcases h with rfl | ⟨k', hk', hlt', _⟩
  · exact .inr ⟨k, hk, hlt, rfl⟩
  · have heq := Option.some.inj (hk.symm.trans hk')
    omega

/-- A rejection keeps the events those of one frame, whether it raises the Alarm or not. -/
theorem OneFrame.reject {s : State} {f : Bytes} {events : List Event}
    (h : OneFrame s.inst.malThreshold (rejectOne s).mal.toNat f events) :
    OneFrame s.inst.malThreshold s.mal.toNat f (stepEvents (reject s).2 ++ events) := by
  rcases reject_snd s with ⟨hr, _⟩ | ⟨k, hr, halarm⟩ <;> rw [hr]
  · exact h.mono (toNat_le_satInc s.mal)
  · obtain ⟨hk, hnext⟩ := alarmAt_eq_some.1 halarm
    have hmal : (rejectOne s).mal.toNat = k.toNat := by
      have hlt := k.isLt
      rw [rejectOne_mal, satInc_toNat, counterMax]
      omega
    exact OneFrame.alarm (hmal ▸ h) hk (by omega)

/-- The law by induction on the bytes before the frame. -/
theorem drain_resynchronises {s : State} {x f : Bytes} (hlive : s.fault = none) (hrx : s.rx = x ++ f)
    (hf : acceptedFrame s.inst f = true) (hx : ∀ i, i < x.length → ¬ LiveCandidate s.inst (x ++ f) i) :
    OneFrame s.inst.malThreshold s.mal.toNat f (drain s).2 ∧ (drain s).1.rx = [] ∧
      (drain s).1.drop.toNat = min (s.drop.toNat + x.length) counterMax := by
  induction x generalizing s with
  | nil =>
    obtain ⟨hevents, hempty, hdrop, _⟩ :=
      drain_of_frames (frames := [f]) hlive (by simpa using hrx) (by simpa using hf)
    have hlt := s.drop.isLt
    rw [hdrop, counterMax, List.length_nil]
    exact ⟨.inl hevents, hempty, by omega⟩
  | cons b x ih =>
    have hlater (i : Nat) (hi : i < x.length) : ¬ LiveCandidate s.inst (x ++ f) i := fun hcand =>
      hx (i + 1) (by simpa using hi) (hcand.cons b)
    have hlen : 4 ≤ s.rx.length := by
      obtain ⟨t, l, rest, c, hbytes, _⟩ := acceptedFrame_eq_true.1 hf
      rw [hrx, hbytes]
      simp only [List.length_append, List.length_cons]
      omega
    have hdead : ¬ LiveCandidate s.inst s.rx 0 := hrx ▸ hx 0 (by simp)
    have hdrop (n : Nat) : min ((satInc s.drop).toNat + n) counterMax = min (s.drop.toNat + (n + 1)) counterMax := by
      rw [satInc_toNat]
      omega
    rcases scanStep_of_not_liveCandidate hlen hdead with hs | hs
    · obtain ⟨hevents, hend⟩ := ih (s := discard1 s) hlive (by simp [hrx]) hf hlater
      rw [drain_of_scan hlive hs (by simp), List.length_cons, ← hdrop]
      exact ⟨hevents, hend⟩
    · obtain ⟨hevents, hend⟩ := ih (s := rejectOne s) hlive (by simp [hrx]) hf hlater
      rw [drain_of_scan hlive hs (reject_snd_ne_needMore s), List.length_cons, ← hdrop]
      exact ⟨OneFrame.reject hevents, hend⟩

/-- Settles O54: a decoder in its reset state has counted nothing yet. -/
theorem resynchronisation : Obligations.Resynchronisation := by
  intro d x f hlive hrx _ hdrop hfits hf hx
  rw [pushAndPoll_of_fits hlive (by simpa [hrx, fitsCapacity_eq_true] using hfits)]
  obtain ⟨hevents, hempty, hcount⟩ :=
    drain_resynchronises (s := pushBytes d (x ++ f)) hlive (by simp [hrx]) hf hx
  refine ⟨hevents.imp id fun ⟨k, _, _, halarm⟩ => ⟨k, halarm⟩, hempty, ?_⟩
  simpa [hdrop, counterMax] using hcount

end Sys2Proof.Machine

/-! PROOFS. The family 60_exceptions.md: which operations return an error and that nothing else changes then (R203, R204,
R209), and the steps that run no operation (R216, R217). -/

namespace Sys2Proof.Machine

/-! ### Returning an error (60_exceptions.md R203, R204, R209) -/

/-- Of the effects an operation can have, `raiseError` alone returns an error, and only an encoder has it. -/
theorem Effect.eq_raiseError {i : Instr} {s t : State} {e : ErrorCode} (h : Effect s i t)
    (he : t.result = some (.error e)) : isEncoder i = true ∧ t = raiseError s e := by
  cases h with
  | raises hi e' =>
    obtain rfl : e' = e := by simpa using he
    exact ⟨hi, rfl⟩
  | sends | faults | crc5 | crc16 | pushes | scans | polls | parses | resets | status => simp at he

theorem encodeControl_result_ne_error {t : Byte} {p : Bytes} {s u : State} (h : encodeControl t p s = .next u)
    (e : ErrorCode) : u.result ≠ some (.error e) := by
  obtain ⟨_, rfl⟩ := encodeControl_eq_next.1 h
  simp

/-- A frame beyond LMAX is a fault, not an error (60_exceptions.md R205). -/
theorem encodeLong_result_ne_error {before : Bytes} {pre : Preamble} {t : Byte} {p : Bytes} {s u : State}
    (h : encodeLong before pre t p s = .next u) (e : ErrorCode) : u.result ≠ some (.error e) := by
  obtain ⟨_, ⟨out, _, rfl⟩ | ⟨f, _, rfl⟩⟩ := encodeLong_eq_next.1 h <;> simp

/-- An answer that raises `e` in a live block returns no other error. -/
theorem error_eq_of_whenLive_raiseError {s t : State} {e e' : ErrorCode}
    (h : whenLive s (.next (raiseError s e)) = .next t) (he : t.result = some (.error e')) : e' = e := by
  obtain rfl := eq_of_whenLive_next h
  simpa using he.symm

/-- The error of ENC_BAUD is a rate the capability does not know (41_encoder.md R128). -/
theorem error_of_exec_encBaud {rate : Nat} {s t : State} {e : ErrorCode} (h : exec (.encBaud rate) s = .next t)
    (he : t.result = some (.error e)) : e = .unsupportedCapability 0x14 := by
  cases hw : baudWriteOf s.inst.cap rate with
  | none =>
    rw [exec_encBaud_of_none hw] at h
    exact error_eq_of_whenLive_raiseError h he
  | some w =>
    rw [exec_encBaud_of_some hw] at h
    exact absurd he (encodeControl_result_ne_error h e)

/-- The error of ENC_JOB is a mask without the capability for one (41_encoder.md R133, R134). -/
theorem error_of_exec_encJob {jobId : Byte} {work : Bytes} {mask : Option (BitVec 32)} {s t : State} {e : ErrorCode}
    (h : exec (.encJob jobId work mask) s = .next t) (he : t.result = some (.error e)) :
    e = .unsupportedCapability 0x15 ∧ s.inst.cap.vrSupported = false ∧ ∃ m, mask = some m := by
  cases mask with
  | none => exact absurd he (encodeLong_result_ne_error h e)
  | some m =>
    cases hvr : s.inst.cap.vrSupported with
    | true =>
      rw [exec_encJob_of_supported hvr] at h
      exact absurd he (encodeLong_result_ne_error h e)
    | false =>
      rw [exec_encJob_of_unsupported hvr] at h
      exact ⟨error_eq_of_whenLive_raiseError h he, rfl, m, rfl⟩

/-- Settles O43: an error is `raiseError`'s, and of the encoder operations two can raise one. -/
theorem errorsLeaveNoEffect : Obligations.ErrorsLeaveNoEffect := by
  intro i s t e h he
  obtain ⟨hi, hraise⟩ := (exec_effect h).eq_raiseError he
  refine ⟨hraise, ?_⟩
  cases i with
  | encBaud rate => exact .inl ⟨error_of_exec_encBaud h he, rate, rfl⟩
  | encJob jobId work mask =>
    obtain ⟨hcode, hvr, m, rfl⟩ := error_of_exec_encJob h he
    exact .inr ⟨hcode, hvr, jobId, work, m, rfl⟩
  | encSetaddr | encInactive | encRead | encWrite | frameSetaddr | frameWriteRegU | frameWriteRegB | frameReadRegU
  | frameReadRegB | frameChainInactive => exact absurd he (encodeControl_result_ne_error h e)
  | encRreg | encRjob | frameJob | frameRespReg | frameRespJob => exact absurd he (encodeLong_result_ne_error h e)
  | crc5 | crc16 | decPush | decStep | decPoll | decParse | decReset | decStatus => cases hi

/-! ### The steps that run no operation (60_exceptions.md R216, R217) -/

theorem step_of_no_request {s : State} (hreq : s.requests = []) : step s = whenLive s (.next s) := by
  simp [step, hreq]

theorem step_of_decode_error {s : State} {r : Request} {rest : List Request} {e : DecodeError}
    (hreq : s.requests = r :: rest) (hdec : decode r.space r.bytes = .error e) :
    step s = .refused (.undecodable e) := by
  simp [step, hreq, hdec]

/-- Settles O46, by the equations of `step` for no request and for a request that does not decode. -/
theorem stepIdlesOrRefusesByName : Obligations.StepIdlesOrRefusesByName := by
  refine ⟨fun s hlive hreq => ?_, fun _ _ _ _ hreq hdec => step_of_decode_error hreq hdec⟩
  rw [step_of_no_request hreq, whenLive_live hlive]

end Sys2Proof.Machine

/-! PROOFS. The family 70_reset_and_hazards.md: the state at instance creation and its invariant (R230, R231), and which
operations can set the fault that none can clear (R233; 60_exceptions.md R205). -/

namespace Sys2Proof.Machine

/-! ### The fault appears in the encoders of a long frame only (70_reset_and_hazards.md R233, 60_exceptions.md R205) -/

/-- A control frame is never too long: its operation sets no fault. -/
theorem encodeControl_keeps_fault {t : Byte} {p : Bytes} {s u : State} (h : encodeControl t p s = .next u) :
    u.fault = s.fault := by
  obtain ⟨_, rfl⟩ := encodeControl_eq_next.1 h
  exact emit_fault s _

/-- ENC_BAUD sends a control frame or raises an error: neither sets the fault. -/
theorem exec_encBaud_keeps_fault {rate : Nat} {s t : State} (h : exec (.encBaud rate) s = .next t) :
    t.fault = s.fault := by
  cases hw : baudWriteOf s.inst.cap rate with
  | none =>
    rw [exec_encBaud_of_none hw] at h
    obtain rfl := eq_of_whenLive_next h
    exact raiseError_fault s _
  | some w =>
    rw [exec_encBaud_of_some hw] at h
    exact encodeControl_keeps_fault h

/-- Settles O42: DEC_STATUS alone runs in a faulted block and only reads; in a live block the CRC and decoder operations, the
control frames and ENC_BAUD keep the fault, which leaves the encoders of a long frame. -/
theorem faultIsStickyAndOnlyEncodersSetIt : Obligations.FaultIsStickyAndOnlyEncodersSetIt := by
  intro i s t h
  refine ⟨fun f hf => ?_, fun f hlive hf => ?_⟩
  · rw [exec_faulted_eq_next hf h, returning_fault, hf]
  · have hset : t.fault ≠ s.fault := by simp [hlive, hf]
    cases i with
    | crc5 | crc16 | decPush | decStep | decPoll | decParse | decReset | decStatus =>
      exact absurd ((exec_effect h).keeps_tx_fault rfl).2 hset
    | encSetaddr | encInactive | encRead | encWrite | frameSetaddr | frameWriteRegU | frameWriteRegB | frameReadRegU
    | frameReadRegB | frameChainInactive => exact absurd (encodeControl_keeps_fault h) hset
    | encBaud => exact absurd (exec_encBaud_keeps_fault h) hset
    | encJob | encRreg | encRjob | frameJob | frameRespReg | frameRespJob => simp

/-! ### The state at instance creation (70_reset_and_hazards.md R230, R231) -/

/-- Settles O47, field by field. -/
theorem creationState : Obligations.CreationState := fun i =>
  ⟨create_rx i, create_mal i, create_drop i, create_fault i, create_cursor i, create_tx i, create_inst i⟩

/-- An empty buffer fits every capacity, 0 included. -/
theorem fitsCapacity_zero (capacity : Option Nat) : fitsCapacity capacity 0 = true := by
  cases capacity with
  | none => rfl
  | some c => exact decide_eq_true (Nat.zero_le c)

/-- Settles O48: the buffer, the counters and the record are empty, and there is no fault and no result to account for. -/
theorem invariantHoldsAtCreation : Obligations.InvariantHoldsAtCreation := fun i =>
  { capacity := fitsCapacity_zero i.rxCapacity
    mal_le_drop := le_rfl
    drop_le_cursor := le_rfl
    fault_length := by simp
    fault_returned := by simp
    delivered_valid := by simp
    step_frame_delivered := by simp
    poll_frame_delivered := by simp }

end Sys2Proof.Machine
